-- ==== Sys2Proof/Word.lean ====
section
/-! DEFINITION. The two word types of the NPE: one bit of the command word or of an operand, and the 32-bit command header. -/

namespace Sys2Proof

/-- One cell of the command word, or one bit of a PATTERN or BITS operand (R13, R16). -/
abbrev Bit := Bool

/-- The header `H` of a command: exactly 32 bits, numbered LSB-0 (R14, R60, R69). -/
abbrev Header := BitVec 32

end Sys2Proof
end

