-- ==== Sys2Proof/Config.lean ====
section
/-! DEFINITION. What is fixed when the block is built (R10, R12, R26): the configuration `cfg`, the reference
configuration REF, and the one value the spec leaves OPEN, `T_ONE`. -/

namespace Sys2Proof

/-- An inclusive range `[first, last]` of command-word indices (R13). -/
structure Field where
  first : Nat
  last  : Nat
deriving DecidableEq, Repr

/-- `k = e - s + 1`, the width of a field with `s ≤ e` (R13). -/
def Field.width (f : Field) : Nat := f.last - f.first + 1

/-- The configuration of one NPE (R10), with the interface parameters `MAX_ENCODE_BITS` and `DUR_W` (R12). -/
structure Config where
  /-- `WORD_LEN`. -/
  wordLen : Nat
  /-- `T_H`, high half of a carrier sub-pulse, µs. -/
  tHigh : Nat
  /-- `T_L`, low half of a carrier sub-pulse, µs. -/
  tLow : Nat
  /-- `T_LEAD`, nominal lead burst, µs. -/
  tLead : Nat
  /-- `T_LEADGAP`, the fixed post-lead period, µs. -/
  tLeadGap : Nat
  /-- `T_ZERO`, µs. -/
  tZero : Nat
  /-- `T_ONE`, µs; `none` while it is not given (R174 condition 7). -/
  tOne : Option Nat
  /-- `F_POWER`. -/
  fPower : Field
  /-- `F_TEMP`. -/
  fTemp : Field
  /-- `F_MIRROR`. -/
  fMirror : Field
  /-- `PAT_ON`. -/
  patOn : List Bit
  /-- `PAT_OFF`. -/
  patOff : List Bit
  /-- `PAT_TEMP_MAX`. -/
  patTempMax : List Bit
  /-- `PAT_TEMP_MIN`. -/
  patTempMin : List Bit
  /-- `BASELINE`, the reset value of the command word, index 0 first. -/
  baseline : List Bit
  /-- `MAX_ENCODE_BITS` (R12; 93 I16: a parameter, default `2^19 - 1`). -/
  maxEncodeBits : Nat
  /-- `DUR_W` (R12; 93 I15): the width of a realisation's duration field, `none` for the model's unbounded naturals. -/
  durW : Option Nat
deriving DecidableEq, Repr

/-- The OPEN value `T_ONE` (R10; 92 D5): a free value. It has no body, so no proof can see a number here. -/
opaque Config.tOneOpen : Nat

/-- How many carrier sub-pulses a duration holds when the carrier period is 0: a free value, because the source gives
none (91 N6). No machine that runs meets it: R174 refuses that configuration (notes/assumptions/25.md). -/
opaque Config.zeroPeriodCount : Nat → Nat

/-- REF, the reference configuration exactly as the source gives it: `T_ONE` is not given (R10). -/
def Config.ref : Config where
  wordLen := 44
  tHigh := 13
  tLow := 13
  tLead := 9000
  tLeadGap := 4500
  tZero := 560
  tOne := none
  fPower := ⟨4, 7⟩
  fTemp := ⟨12, 15⟩
  fMirror := ⟨40, 43⟩
  patOn := [true, false, false, false]
  patOff := [false, false, false, false]
  patTempMax := [true, false, true, true]
  patTempMin := [false, false, false, false]
  baseline :=
    [false, false, true, false, true, false, false, false] ++
    [false, true, false, false, true, false, false, false] ++
    List.replicate 24 false ++
    [true, false, false, true]
  maxEncodeBits := 524287
  durW := none

/-- The configuration the host's fixed `step` runs with: REF, its `T_ONE` the free value. -/
def Config.device : Config := { Config.ref with tOne := some Config.tOneOpen }

/-- `T_ONE` as the encoder reads it. A configuration with no `T_ONE` has no initial state (R174), so the second
case is never met by a machine that runs; it answers the free value, not a number. -/
def Config.oneGap (c : Config) : Nat := c.tOne.getD Config.tOneOpen

end Sys2Proof
end

