-- ==== Sys2Proof/Syntax.lean ====
section
/-! DEFINITION. The commands of the NPE (R65), one constructor per row of spec/opcode_table.json, and the
transaction that carries a command on the command port (R60). -/

namespace Sys2Proof

/-- A command with its operands assembled (R63). Indices and values are natural numbers; the bounds their
encodings give them are checked by `Instr.wellFormed`. A bit list has its first bit first (R16). -/
inductive Instr where
  /-- READ_FIELD `first, last` (R80). -/
  | readField (first last : Nat)
  /-- WRITE_FIELD `first, last, value` (R82). -/
  | writeField (first last value : Nat)
  /-- REPLACE_RANGE `first, last, "pattern"` (R85). -/
  | replaceRange (first last : Nat) (pattern : List Bit)
  /-- EQUALS_RANGE `first, last, "pattern"` (R88). -/
  | equalsRange (first last : Nat) (pattern : List Bit)
  /-- SET_POWER `on` (R101). -/
  | setPower (on : Bit)
  /-- INC_TEMP (R102). -/
  | incTemp
  /-- DEC_TEMP (R103). -/
  | decTemp
  /-- ENCODE `"bits"` (R133). -/
  | encode (bits : List Bit)
  /-- TRANSMIT (R135). -/
  | transmit
deriving DecidableEq, Repr

/-- The rows of the opcode map (R65), without their operands. -/
inductive Op where
  | readField | writeField | replaceRange | equalsRange | setPower | incTemp | decTemp | encode | transmit
deriving DecidableEq, Repr

/-- The row an instruction belongs to. -/
def Instr.op : Instr → Op
  | .readField _ _ => .readField
  | .writeField _ _ _ => .writeField
  | .replaceRange _ _ _ => .replaceRange
  | .equalsRange _ _ _ => .equalsRange
  | .setPower _ => .setPower
  | .incTemp => .incTemp
  | .decTemp => .decTemp
  | .encode _ => .encode
  | .transmit => .transmit

/-- The six formats (R62). -/
inductive Format where
  | n | p | r | rv | rp | e
deriving DecidableEq, Repr

/-- The data operand of a command: a binary word of `len` bits, its bit 0 least significant (R14, R62). No
operand and a word of no bits are the same. -/
structure DataWord where
  len : Nat
  val : Nat
deriving DecidableEq, Repr

/-- No data operand (formats N, P and R). -/
def DataWord.absent : DataWord := ⟨0, 0⟩

/-- One transaction on the command port: a header and its data operand (R60). -/
structure Command where
  header : Header
  data   : DataWord
deriving DecidableEq, Repr

/-- The pseudo-instructions of R71. -/
inductive Pseudo where
  | powerOn | powerOff | evPowerOn | evPowerOff | evTempUp | evTempDown
deriving DecidableEq, Repr

end Sys2Proof
end

