-- ==== Sys2Proof/Machine/State.lean ====
section
/-! DEFINITION. The state of the NPE (R20–R30), the environment's inputs that the step reads, and the reasons a step
can stop. -/

namespace Sys2Proof.Machine

/-- A logical output level, passed to the driver unchanged (R18, R139). -/
inductive Level where
  | low | high
deriving DecidableEq, Repr

/-- One PulseItem `(l0, d0, l1, d1)`, durations in µs (R18). -/
structure PulseItem where
  level0    : Level
  duration0 : Nat
  level1    : Level
  duration1 : Nat
deriving DecidableEq, Repr

/-- FCAUSE (R23); the value 3 never occurs. -/
inductive FaultCause where
  | none | rangeError | illegalCommand
deriving DecidableEq, Repr

/-- STATUS (R23). Its 8-bit word, reserved bits included, is `Status.word` (Flags.lean). -/
structure Status where
  busy    : Bool
  faulted : Bool
  fcause  : FaultCause
deriving DecidableEq, Repr

/-- `RESP.code` (R24). -/
inductive RespCode where
  | ok | validationError
deriving DecidableEq, Repr

/-- `RESP.data` (R24). -/
inductive RespData where
  | none
  | nat (v : Nat)
  | bool (b : Bool)
  | timeline (t : List PulseItem)
deriving DecidableEq, Repr

/-- RESP, the outcome of the last command that completed without a fault (R24). -/
structure Resp where
  code : RespCode
  data : RespData
deriving DecidableEq, Repr

/-- Which agent may move next: the command port, the transmission driver, or the host's reset input (R158, R171). -/
inductive Turn where
  | port | driver | reset
deriving DecidableEq, Repr

/-- The state. The first four fields are the block's own (R20, R23, R24, R25); the last three are the environment's:
what the host presents, which agent moves when, and what the driver has received (R179). -/
structure State where
  /-- `CW`, index 0 first (R20). Its length is `WORD_LEN` in every state a machine reaches (`Inv`). -/
  cw : List Bit
  /-- `STATUS` (R23). -/
  status : Status
  /-- `RESP` (R24). -/
  resp : Resp
  /-- `OUT` (R25). -/
  out : Option (List PulseItem)
  /-- The commands the host agents present, in the order the port meets them (R22, R54); the head is presented now. -/
  port : List Command
  /-- The order in which the agents get their turns (R158, R171); each step takes the head. -/
  turns : List Turn
  /-- The timelines the driver has accepted, in order (R136, R179). -/
  delivered : List (List PulseItem)
deriving DecidableEq, Repr

/-- Why a step stops the machine. The spec's own faults (RangeError, IllegalCommand) are no stops: they are taken as
next states with `STATUS.FAULTED` set (R153). -/
inductive Fault where
  /-- Raised by `step` when `turns` is empty: the environment's data has run out and the model says nothing of what
  the outside world does next. Safe: the block itself would only wait. -/
  | environmentEnded
deriving DecidableEq, Repr

/-- Why a step refuses. -/
inductive Refusal where
  /-- Raised by `exec` for an instruction that has no meaning yet; no arm raises it. Safe. -/
  | notModelled (mnemonic : String)
deriving DecidableEq, Repr

/-- The outcome of a step or of an instruction. -/
abbrev Outcome := Host.Outcome State Fault Refusal

/-- The state after reset under configuration `c`, with nothing presented and no turn given (R29, R170). -/
def State.resetOf (c : Config) : State where
  cw := c.baseline
  status := ⟨false, false, .none⟩
  resp := ⟨.ok, .none⟩
  out := none
  port := []
  turns := []
  delivered := []

/-- The device right after reset (R29, R170). -/
def State.reset : State := State.resetOf Config.device

end Sys2Proof.Machine
end

