-- ==== Sys2Proof/Machine/Flags.lean ====
section
/-! DEFINITION. The codes and the word of STATUS (R23) and the code of RESP (R24, R150). The NPE has no condition
codes (R27). -/

namespace Sys2Proof.Machine

/-- The code of FCAUSE in `STATUS[3:2]` (R23). -/
def FaultCause.code : FaultCause → Nat
  | .none => 0
  | .rangeError => 1
  | .illegalCommand => 2

/-- STATUS as the 8-bit word the host sees: BUSY in bit 0, FAULTED in bit 1, FCAUSE in bits 3..2, and `STATUS[7:4]`
reading 0 (R23). -/
def Status.word (x : Status) : BitVec 8 :=
  BitVec.ofNat 8 (x.busy.toNat + 2 * x.faulted.toNat + 4 * x.fcause.code)

/-- The code of `RESP.code` (R24). -/
def RespCode.code : RespCode → Nat
  | .ok => 0
  | .validationError => 1

/-- The port accepts a command: not FAULTED and not BUSY (R66, R137, R153, R157). -/
def portOpen (s : State) : Bool := !s.status.faulted && !s.status.busy

/-- A driver accept is enabled: `OUT = some(t)` (R136). -/
def driverEnabled (s : State) : Bool := s.out.isSome

end Sys2Proof.Machine
end

