-- ==== Sys2Proof/Machine/Bits.lean ====
section
/-! DEFINITION. The two conversions between bit lists and natural numbers that every rule uses (R17). -/

namespace Sys2Proof

/-- `val(l)`, the big-endian value of a bit list (R17). -/
def bitsVal : List Bit → Nat
  | [] => 0
  | b :: l => b.toNat * 2 ^ l.length + bitsVal l

/-- `bitsBE(v, k)`, the `k`-bit big-endian list of `v mod 2^k` (R17). -/
def bitsBE (v : Nat) : Nat → List Bit
  | 0 => []
  | k + 1 => v.testBit k :: bitsBE v k

end Sys2Proof
end

