-- ==== Sys2Proof/Machine/Operands.lean ====
section
/-! DEFINITION. Operand assembly: the header's fields (R61), the operands each format takes from them and from the
data word (R63), and the range arithmetic of the primitives' checks (R85, R88). -/

namespace Sys2Proof

/-- `H[3:0]`, OP (R61). -/
def opField (h : Header) : Nat := (h.extractLsb' 0 4).toNat
/-- `H[4]`, ON (R61). -/
def onField (h : Header) : Nat := (h.extractLsb' 4 1).toNat
/-- `H[10:5]`, START (R61). -/
def startField (h : Header) : Nat := (h.extractLsb' 5 6).toNat
/-- `H[16:11]`, END (R61). -/
def endField (h : Header) : Nat := (h.extractLsb' 11 6).toNat
/-- `H[23:17]`, LEN (R61). -/
def lenField (h : Header) : Nat := (h.extractLsb' 17 7).toNat
/-- `H[23:5]`, COUNT: the bits of START, END and LEN together (R61). -/
def countField (h : Header) : Nat := (h.extractLsb' 5 19).toNat
/-- `H[31:24]`, RSV (R61). -/
def rsvField (h : Header) : Nat := (h.extractLsb' 24 8).toNat

/-- A header with the given fields; the fields are taken to fit (R61). -/
def packHeader (op on start stop len : Nat) : Header :=
  BitVec.ofNat 32 (op + 2 ^ 4 * on + 2 ^ 5 * start + 2 ^ 11 * stop + 2 ^ 17 * len)

/-- The length of the data operand a format names, found from the header alone (R62, R69). -/
def operandLen (f : Format) (h : Header) : Nat :=
  match f with
  | .n => 0
  | .p => 0
  | .r => 0
  | .rv => 64
  | .rp => lenField h
  | .e => countField h

/-- `pattern[j] = PATTERN[L-1-j]` and `bits[j] = BITS[N-1-j]`: a data word's bits, most significant first (R63). -/
def DataWord.bits (d : DataWord) : List Bit := bitsBE d.val d.len

/-- The data word whose bits, most significant first, are `l` (R63: `val(pattern) = PATTERN`). -/
def DataWord.ofBits (l : List Bit) : DataWord := ⟨l.length, bitsVal l⟩

/-- The operands of a command, by row (R63): every field zero-extended, none scaled. -/
def assemble (op : Op) (cmd : Command) : Instr :=
  match op with
  | .readField => .readField (startField cmd.header) (endField cmd.header)
  | .writeField => .writeField (startField cmd.header) (endField cmd.header) cmd.data.val
  | .replaceRange => .replaceRange (startField cmd.header) (endField cmd.header) cmd.data.bits
  | .equalsRange => .equalsRange (startField cmd.header) (endField cmd.header) cmd.data.bits
  | .setPower => .setPower (onField cmd.header == 1)
  | .incTemp => .incTemp
  | .decTemp => .decTemp
  | .encode => .encode cmd.data.bits
  | .transmit => .transmit

/-- `e - s + 1` computed in the integers, so that it can be zero or negative (R85, R88). -/
def rangeWidth (first last : Nat) : Int := (last : Int) - first + 1

/-- RangeError's condition for READ_FIELD and WRITE_FIELD: `s > e` or `e >= WORD_LEN` (R80, R84). -/
def fieldOutOfRange (c : Config) (first last : Nat) : Bool := last < first || c.wordLen ≤ last

/-- ValidationError's condition for REPLACE_RANGE: `e >= WORD_LEN` or `L != e - s + 1` (R85, R86). -/
def replaceInvalid (c : Config) (first last : Nat) (pattern : List Bit) : Bool :=
  c.wordLen ≤ last || (pattern.length : Int) != rangeWidth first last

end Sys2Proof
end

