-- ==== Sys2Proof/Machine/Ops.lean ====
section
/-! DEFINITION. The named operations every meaning is written with: the two accesses to the command word (R17), the
response (R24), taking a fault (R153), the only way out of one, reset (R170), and the output buffer's two updates
(R135, R136). -/

namespace Sys2Proof.Machine

/-- `MemRead(a, n)`, the bits `CW[a], …, CW[a+n-1]`, for `a + n <= WORD_LEN` (R17). -/
def memRead (cw : List Bit) (a n : Nat) : List Bit := (cw.drop a).take n

/-- `MemWrite(a, len(l), l)`: `CW[a+j] <- l[j]`, for `a + len(l) <= WORD_LEN` (R17). No cell beyond the word is
written, and the word keeps its length (R20). -/
def memWrite : List Bit → Nat → List Bit → List Bit
  | [], _, _ => []
  | c :: cw, _, [] => c :: cw
  | _ :: cw, 0, b :: l => b :: memWrite cw 0 l
  | c :: cw, a + 1, b :: l => c :: memWrite cw a (b :: l)

/-- The form of the address space: one bit at each of the indices `0..WORD_LEN-1` (R20, R40). -/
def Memory.wf (c : Config) (cw : List Bit) : Bool := cw.length == c.wordLen

/-- `CW[i]`, `none` for an index that names no cell (R13, R40). -/
def State.cell (s : State) (i : Nat) : Option Bit := s.cw[i]?

/-- The bits of a named field (R42). -/
def fieldBits (f : Field) (s : State) : List Bit := memRead s.cw f.first f.width

/-- A named field as a number (R13). -/
def fieldVal (f : Field) (s : State) : Nat := bitsVal (fieldBits f s)

/-- `MemWrite` on the state's command word. -/
def writeBits (a : Nat) (l : List Bit) (s : State) : State := { s with cw := memWrite s.cw a l }

/-- Write a number into a named field, truncating on overflow (R83). -/
def setField (f : Field) (v : Nat) (s : State) : State := writeBits f.first (bitsBE v f.width) s

/-- `respond(code, data)` (R17, R24). -/
def respond (code : RespCode) (data : RespData) (s : State) : State := { s with resp := ⟨code, data⟩ }

/-- Taking a fault: FAULTED and FCAUSE are set, and nothing else is written (R153). -/
def takeFault (cause : FaultCause) (s : State) : State :=
  { s with status := { s.status with faulted := true, fcause := cause } }

/-- Reset, the only way out of the faulted state (R153, R160, R170, R171). What the host presents, the turns and what
the driver has received are outside the block and stay. -/
def resetBlock (c : Config) (s : State) : State :=
  { State.resetOf c with port := s.port, turns := s.turns, delivered := s.delivered }

/-- `OUT <- some(t)` and `STATUS.BUSY <- 1` (R135). -/
def putFrame (t : List PulseItem) (s : State) : State :=
  { s with out := some t, status := { s.status with busy := true } }

/-- `emit(t)`, then `OUT <- none` and `STATUS.BUSY <- 0` (R136). -/
def deliverFrame (t : List PulseItem) (s : State) : State :=
  { s with out := none, status := { s.status with busy := false }, delivered := s.delivered ++ [t] }

end Sys2Proof.Machine
end

