-- ==== Sys2Proof/Machine/Bitword.lean ====
section
/-! DEFINITION. The four BitWord primitives (R80–R93). Each meaning is the effect of an accepted command. -/

namespace Sys2Proof.Machine

/-- READ_FIELD under configuration `c` (R80). -/
def readFieldOn (c : Config) (first last : Nat) (s : State) : Outcome :=
  if fieldOutOfRange c first last then .next (takeFault .rangeError s)
  else .next (respond .ok (.nat (bitsVal (memRead s.cw first (last - first + 1)))) s)

/-- WRITE_FIELD under configuration `c` (R82–R84). -/
def writeFieldOn (c : Config) (first last value : Nat) (s : State) : Outcome :=
  if fieldOutOfRange c first last then .next (takeFault .rangeError s)
  else .next (respond .ok .none (writeBits first (bitsBE value (last - first + 1)) s))

/-- REPLACE_RANGE under configuration `c` (R85–R87). -/
def replaceRangeOn (c : Config) (first last : Nat) (pattern : List Bit) (s : State) : Outcome :=
  if replaceInvalid c first last pattern then .next (respond .validationError .none s)
  else .next (respond .ok .none (writeBits first pattern s))

/-- EQUALS_RANGE under configuration `c`: the length is tested first (R88, R89). -/
def equalsRangeOn (c : Config) (first last : Nat) (pattern : List Bit) (s : State) : Outcome :=
  if (pattern.length : Int) ≠ rangeWidth first last then .next (respond .ok (.bool false) s)
  else if c.wordLen ≤ last then .next (takeFault .rangeError s)
  else .next (respond .ok (.bool (memRead s.cw first pattern.length == pattern)) s)

/-- READ_FIELD (R80). -/
def execReadField (first last : Nat) (s : State) : Outcome := readFieldOn Config.device first last s

/-- WRITE_FIELD (R82). -/
def execWriteField (first last value : Nat) (s : State) : Outcome := writeFieldOn Config.device first last value s

/-- REPLACE_RANGE (R85). -/
def execReplaceRange (first last : Nat) (pattern : List Bit) (s : State) : Outcome :=
  replaceRangeOn Config.device first last pattern s

/-- EQUALS_RANGE (R88). -/
def execEqualsRange (first last : Nat) (pattern : List Bit) (s : State) : Outcome :=
  equalsRangeOn Config.device first last pattern s

end Sys2Proof.Machine
end

