-- ==== Sys2Proof/Machine/CommandState.lean ====
section
/-! DEFINITION. The three mutators (R100–R108), each in the source's own step order, so that overlapping fields give
what that order gives (92 D26). -/

namespace Sys2Proof.Machine

/-- SET_POWER under configuration `c` (R101). -/
def setPowerOn (c : Config) (on : Bit) (s : State) : Outcome :=
  .next (respond .ok .none (writeBits c.fPower.first (if on then c.patOn else c.patOff) s))

/-- The change INC_TEMP makes when its guard lets it: TEMP is written before MIRROR is read (R102). -/
def raiseTemp (c : Config) (s : State) : State :=
  let s₁ := setField c.fTemp (fieldVal c.fTemp s + 1) s
  setField c.fMirror (fieldVal c.fMirror s₁ - 1) s₁

/-- The change DEC_TEMP makes when its guard lets it (R103). -/
def lowerTemp (c : Config) (s : State) : State :=
  let s₁ := setField c.fTemp (fieldVal c.fTemp s - 1) s
  setField c.fMirror (fieldVal c.fMirror s₁ + 1) s₁

/-- INC_TEMP under configuration `c`: the guard tests equality with `PAT_TEMP_MAX` (R102). -/
def incTempOn (c : Config) (s : State) : Outcome :=
  .next (respond .ok .none (if fieldBits c.fTemp s = c.patTempMax then s else raiseTemp c s))

/-- DEC_TEMP under configuration `c`: the guard tests equality with `PAT_TEMP_MIN` (R103). -/
def decTempOn (c : Config) (s : State) : Outcome :=
  .next (respond .ok .none (if fieldBits c.fTemp s = c.patTempMin then s else lowerTemp c s))

/-- SET_POWER (R101). -/
def execSetPower (on : Bit) (s : State) : Outcome := setPowerOn Config.device on s

/-- INC_TEMP (R102). -/
def execIncTemp (s : State) : Outcome := incTempOn Config.device s

/-- DEC_TEMP (R103). -/
def execDecTemp (s : State) : Outcome := decTempOn Config.device s

end Sys2Proof.Machine
end

