-- ==== Sys2Proof/Machine/Encoder.lean ====
section
/-! DEFINITION. The pulse encoder, a pure function of a bit list and the timing constants (R11, R18, R120–R132). -/

namespace Sys2Proof.Machine

/-- `P = T_H + T_L` (R11, R121). -/
def carrierPeriod (c : Config) : Nat := c.tHigh + c.tLow

/-- `d div P`, truncated (R123). At `P = 0`, a configuration R174 refuses, the source gives no value (R121, 91 N6) and
the count is a free value (notes/assumptions/25.md). -/
def subPulses (c : Config) (d : Nat) : Nat :=
  if carrierPeriod c = 0 then Config.zeroPeriodCount d else d / carrierPeriod c

/-- `N_LEAD = T_LEAD div P`, truncated (R11, R122, R123); free at `P = 0` (`subPulses`). -/
def nLead (c : Config) : Nat := subPulses c c.tLead

/-- `M_BIT = T_ZERO div P`, whatever the bit is (R11, R125); free at `P = 0` (`subPulses`). -/
def mBit (c : Config) : Nat := subPulses c c.tZero

/-- `C`, the carrier sub-pulse (R18). -/
def carrier (c : Config) : PulseItem := ⟨.high, c.tHigh, .low, c.tLow⟩

/-- `LT`, the lead terminator (R18). -/
def leadTerm (c : Config) : PulseItem := ⟨.high, c.tLeadGap, .low, 0⟩

/-- `T_ONE` for a 1 bit, `T_ZERO` for a 0 bit (R18, R124). -/
def gapOf (c : Config) (b : Bit) : Nat := if b then c.oneGap else c.tZero

/-- `BT(b)`, the bit terminator (R18). -/
def bitTerm (c : Config) (b : Bit) : PulseItem := ⟨.high, gapOf c b, .low, 0⟩

/-- `EM`, the end-of-frame marker's last item (R18). -/
def endMark : PulseItem := ⟨.high, 0, .high, 0⟩

/-- The lead code (R122). -/
def leadCode (c : Config) : List PulseItem := List.replicate (nLead c) (carrier c) ++ [leadTerm c]

/-- The burst of one bit (R124, R125). -/
def burst (c : Config) (b : Bit) : List PulseItem := List.replicate (mBit c) (carrier c) ++ [bitTerm c b]

/-- The end-of-frame marker (R126). -/
def endOfFrame (c : Config) : List PulseItem := List.replicate (mBit c) (carrier c) ++ [endMark]

/-- `encode(bits)` (R127). -/
def pulseEncode (c : Config) (bits : List Bit) : List PulseItem :=
  leadCode c ++ bits.flatMap (burst c) ++ endOfFrame c

/-- The time an item lasts, `d0 + d1` µs (R130). -/
def PulseItem.duration (p : PulseItem) : Nat := p.duration0 + p.duration1

/-- The time a timeline lasts, µs (R130). -/
def totalDuration (t : List PulseItem) : Nat := (t.map PulseItem.duration).sum

end Sys2Proof.Machine
end

