-- ==== Sys2Proof/Machine/Pulse.lean ====
section
/-! DEFINITION. ENCODE and TRANSMIT (R133–R135). -/

namespace Sys2Proof.Machine

/-- ENCODE under configuration `c`: the timeline is the response (R133). -/
def encodeOn (c : Config) (bits : List Bit) (s : State) : Outcome :=
  .next (respond .ok (.timeline (pulseEncode c bits)) s)

/-- TRANSMIT under configuration `c`: the whole word is read as a snapshot (R134) and its frame is put in `OUT`
(R135). -/
def transmitOn (c : Config) (s : State) : Outcome :=
  .next (respond .ok .none (putFrame (pulseEncode c (memRead s.cw 0 c.wordLen)) s))

/-- ENCODE (R133). -/
def execEncode (bits : List Bit) (s : State) : Outcome := encodeOn Config.device bits s

/-- TRANSMIT (R135). -/
def execTransmit (s : State) : Outcome := transmitOn Config.device s

end Sys2Proof.Machine
end

