-- ==== Sys2Proof/Machine/Dispatch.lean ====
section
/-! DEFINITION. The meaning of every command, on the device: one arm per row of the opcode map (R65). `exec i s` is
what `i` does once the port has accepted it; the port's conditions and the decoder come before it (R93, R157;
Machine/Turns.lean). -/

namespace Sys2Proof.Machine

def exec (i : Instr) (s : State) : Host.Outcome State Fault Refusal :=
  match i with
  | .readField first last => Sys2Proof.Machine.execReadField first last s
  | .writeField first last value => Sys2Proof.Machine.execWriteField first last value s
  | .replaceRange first last pattern => Sys2Proof.Machine.execReplaceRange first last pattern s
  | .equalsRange first last pattern => Sys2Proof.Machine.execEqualsRange first last pattern s
  | .setPower on => Sys2Proof.Machine.execSetPower on s
  | .incTemp => Sys2Proof.Machine.execIncTemp s
  | .decTemp => Sys2Proof.Machine.execDecTemp s
  | .encode bits => Sys2Proof.Machine.execEncode bits s
  | .transmit => Sys2Proof.Machine.execTransmit s

end Sys2Proof.Machine
end

