-- ==== Sys2Proof/WellFormed.lean ====
section
/-! DEFINITION. Which instructions have an encoding: the bounds the header's fields and the operand words give
(R12, R61, R63). -/

namespace Sys2Proof

/-- An index fits a 6-bit START or END field (`IDX_W`, R12). -/
def indexFits (i : Nat) : Bool := i < 64

/-- A value fits the 64-bit VALUE word (`VAL_W`, R12). -/
def valueFits (v : Nat) : Bool := v < 2 ^ 64

/-- A pattern's length fits the 7-bit LEN field (R61). -/
def patternFits (p : List Bit) : Bool := p.length < 128

/-- A bit sequence's length fits the 19-bit COUNT field (R61) and is at most `MAX_ENCODE_BITS` (R133). -/
def bitsFit (c : Config) (b : List Bit) : Bool := b.length < 2 ^ 19 && b.length ≤ c.maxEncodeBits

/-- The instruction can be presented on the command port of an NPE with configuration `c`. -/
def Instr.wellFormed (c : Config) : Instr → Bool
  | .readField first last => indexFits first && indexFits last
  | .writeField first last value => indexFits first && indexFits last && valueFits value
  | .replaceRange first last pattern => indexFits first && indexFits last && patternFits pattern
  | .equalsRange first last pattern => indexFits first && indexFits last && patternFits pattern
  | .setPower _ => true
  | .incTemp => true
  | .decTemp => true
  | .encode bits => bitsFit c bits
  | .transmit => true

/-- A data word is a word of its stated length. -/
def DataWord.wellFormed (d : DataWord) : Bool := d.val < 2 ^ d.len

end Sys2Proof
end

