-- ==== Sys2Proof/Decode.lean ====
section
/-! DEFINITION. The opcode map (R65), the decoder (R66, R67) and the encoder written from the same map. -/

namespace Sys2Proof

/-- A row of the opcode map: a header selects it when `(H & mask) = pattern` (R65). -/
structure Row where
  op      : Op
  format  : Format
  pattern : Header
  mask    : Header
deriving DecidableEq, Repr

/-- The rows of R65, in its order. -/
def opcodeRows : List Row :=
  [ ⟨.readField,    .r,  0x00000001#32, 0xFFFE001F#32⟩,
    ⟨.writeField,   .rv, 0x00000002#32, 0xFFFE001F#32⟩,
    ⟨.replaceRange, .rp, 0x00000003#32, 0xFF00001F#32⟩,
    ⟨.equalsRange,  .rp, 0x00000004#32, 0xFF00001F#32⟩,
    ⟨.setPower,     .p,  0x00000005#32, 0xFFFFFFEF#32⟩,
    ⟨.incTemp,      .n,  0x00000006#32, 0xFFFFFFFF#32⟩,
    ⟨.decTemp,      .n,  0x00000007#32, 0xFFFFFFFF#32⟩,
    ⟨.encode,       .e,  0x00000008#32, 0xFF00001F#32⟩,
    ⟨.transmit,     .n,  0x00000009#32, 0xFFFFFFFF#32⟩ ]

/-- The header selects the row (R65). -/
def Row.selects (r : Row) (h : Header) : Bool := h &&& r.mask == r.pattern

/-- The row a header selects, if any (R66). -/
def rowOf (h : Header) : Option Row := opcodeRows.find? (fun r => r.selects h)

/-- Why a command is illegal (R67). Every reason raises IllegalCommand (R154). -/
inductive Reject where
  /-- OP is 0x0 or in 0xA–0xF. -/
  | reservedOpcode
  /-- RSV, `H[31:24]`, is not all 0. -/
  | reservedBits
  /-- A bit that the format does not use is 1. -/
  | unusedBits
  /-- The data operand does not have the length the format names, or is no word of its stated length. -/
  | operandLength
  /-- ENCODE's COUNT exceeds a lowered `MAX_ENCODE_BITS` (notes/assumptions/13.md). -/
  | countTooLarge
deriving DecidableEq, Repr

/-- The reason a header selects no row (R67). -/
def rejectHeader (h : Header) : Reject :=
  if opField h = 0 ∨ 10 ≤ opField h then .reservedOpcode
  else if rsvField h ≠ 0 then .reservedBits
  else .unusedBits

/-- Decoding under configuration `c` (R66): it reads no state and writes none. -/
def decodeOn (c : Config) (cmd : Command) : Except Reject Instr :=
  match rowOf cmd.header with
  | none => .error (rejectHeader cmd.header)
  | some r =>
    if cmd.data.len ≠ operandLen r.format cmd.header ∨ cmd.data.wellFormed = false then .error .operandLength
    else if r.op = .encode ∧ c.maxEncodeBits < cmd.data.len then .error .countTooLarge
    else .ok (assemble r.op cmd)

/-- Decoding on the device the host's `step` runs. -/
def decode (cmd : Command) : Except Reject Instr := decodeOn Config.device cmd

/-- The command that presents an instruction (R61, R62, R63, R65). -/
def encode : Instr → Command
  | .readField first last => ⟨packHeader 1 0 first last 0, .absent⟩
  | .writeField first last value => ⟨packHeader 2 0 first last 0, ⟨64, value⟩⟩
  | .replaceRange first last pattern => ⟨packHeader 3 0 first last pattern.length, .ofBits pattern⟩
  | .equalsRange first last pattern => ⟨packHeader 4 0 first last pattern.length, .ofBits pattern⟩
  | .setPower on => ⟨packHeader 5 on.toNat 0 0 0, .absent⟩
  | .incTemp => ⟨packHeader 6 0 0 0 0, .absent⟩
  | .decTemp => ⟨packHeader 7 0 0 0 0, .absent⟩
  | .encode bits => ⟨packHeader 8 0 bits.length 0 0, .ofBits bits⟩
  | .transmit => ⟨packHeader 9 0 0 0 0, .absent⟩

/-- The total length of a command, from its header alone (R69); `none` when the header selects no row. -/
def commandLen (h : Header) : Option Nat := (rowOf h).map fun r => 32 + operandLen r.format h

/-- The transaction whose bits are `w`, the header in bits 31..0 and the operand word, as long as the header names,
from bit 32 up. Bits above `nbits` are 0. -/
def commandOfWord (nbits w : Nat) : Command :=
  let bits := w % 2 ^ nbits
  let h : Header := BitVec.ofNat 32 bits
  ⟨h, ⟨(commandLen h).getD 32 - 32, bits / 2 ^ 32⟩⟩

/-- The instruction the decoder reads from a command whose bits are `w`. -/
def decodeTableWord (nbits w : Nat) : Option Instr :=
  match decode (commandOfWord nbits w) with
  | .ok i => some i
  | .error _ => none

end Sys2Proof
end

