-- ==== Sys2Proof/Machine/Turns.lean ====
section
/-! DEFINITION. What each agent's turn does: the command port's (R22, R66, R137, R153, R157), the driver's (R136) and
reset's (R171). `run` is the meaning of the instructions, `exec` on the device. -/

namespace Sys2Proof.Machine

/-- An accepted command: it decodes and runs, or takes the IllegalCommand fault (R66, R154). -/
def acceptCommand (c : Config) (run : Instr → State → Outcome) (cmd : Command) (s : State) : Outcome :=
  match decodeOn c cmd with
  | .error _ => .next (takeFault .illegalCommand s)
  | .ok i => run i s

/-- The port's turn. The presented command is accepted when the port is open; else it has no step and stays presented
(R137, R153). With no command presented the turn passes. -/
def portTurn (c : Config) (run : Instr → State → Outcome) (s : State) : Outcome :=
  match s.port with
  | [] => .next s
  | cmd :: rest => if portOpen s then acceptCommand c run cmd { s with port := rest } else .next s

/-- The driver's turn: driver accept when `OUT = some(t)` (R136); else the turn passes. -/
def driverTurn (s : State) : Outcome :=
  match s.out with
  | none => .next s
  | some t => .next (deliverFrame t s)

/-- Reset's turn: enabled in every state and never held (R171). -/
def resetTurn (c : Config) (s : State) : Outcome := .next (resetBlock c s)

/-- The turn of one agent. -/
def runTurn (c : Config) (run : Instr → State → Outcome) (t : Turn) (s : State) : Outcome :=
  match t with
  | .port => portTurn c run s
  | .driver => driverTurn s
  | .reset => resetTurn c s

/-- One step: the agent whose turn is next moves (R158). -/
def stepWith (c : Config) (run : Instr → State → Outcome) (s : State) : Outcome :=
  match s.turns with
  | [] => .fault .environmentEnded
  | t :: ts => runTurn c run t { s with turns := ts }

end Sys2Proof.Machine
end

