-- ==== Sys2Proof/Machine/Step.lean ====
section
/-! DEFINITION. The device's step, and how one command is placed so that the next step runs it. -/

namespace Sys2Proof.Machine

/-- One step of the device (R22, R158). -/
def step (s : State) : Host.Outcome State Fault Refusal := stepWith Config.device exec s

/-- `s` with the command whose bits are `w` presented at the port, and the port's turn next. -/
def State.withFetchWord (s : State) (nbits w : Nat) : State :=
  { s with port := commandOfWord nbits w :: s.port, turns := .port :: s.turns }

end Sys2Proof.Machine
end

