-- ==== Sys2Proof/Machine/Assembler.lean ====
section
/-! DEFINITION. The textual syntax of commands (R70) and the pseudo-instructions (R71): an assembler from one line of
text to the commands it stands for, and the text of an instruction. -/

namespace Sys2Proof

/-- The mnemonic of a row, as R65 spells it. -/
def Op.mnemonic : Op → String
  | .readField => "READ_FIELD"
  | .writeField => "WRITE_FIELD"
  | .replaceRange => "REPLACE_RANGE"
  | .equalsRange => "EQUALS_RANGE"
  | .setPower => "SET_POWER"
  | .incTemp => "INC_TEMP"
  | .decTemp => "DEC_TEMP"
  | .encode => "ENCODE"
  | .transmit => "TRANSMIT"

/-- All rows. -/
def Op.all : List Op :=
  [.readField, .writeField, .replaceRange, .equalsRange, .setPower, .incTemp, .decTemp, .encode, .transmit]

/-- The name of a pseudo-instruction (R71). -/
def Pseudo.mnemonic : Pseudo → String
  | .powerOn => "POWER_ON"
  | .powerOff => "POWER_OFF"
  | .evPowerOn => "EV_POWER_ON"
  | .evPowerOff => "EV_POWER_OFF"
  | .evTempUp => "EV_TEMP_UP"
  | .evTempDown => "EV_TEMP_DOWN"

/-- All pseudo-instructions. -/
def Pseudo.all : List Pseudo := [.powerOn, .powerOff, .evPowerOn, .evPowerOff, .evTempUp, .evTempDown]

/-- The commands a pseudo-instruction stands for (R71): an event's TRANSMIT follows its mutator always. -/
def Pseudo.expand : Pseudo → List Instr
  | .powerOn => [.setPower true]
  | .powerOff => [.setPower false]
  | .evPowerOn => [.setPower true, .transmit]
  | .evPowerOff => [.setPower false, .transmit]
  | .evTempUp => [.incTemp, .transmit]
  | .evTempDown => [.decTemp, .transmit]

/-- A number in decimal. -/
def decimalText (n : Nat) : List Char := Nat.toDigits 10 n

/-- A bit list as a quoted digit string, first digit first (R16, R70). -/
def bitsText (l : List Bit) : List Char := '"' :: (l.map fun b => if b then '1' else '0') ++ ['"']

/-- The operands of an instruction, as text (R70). -/
def Instr.operandTexts : Instr → List (List Char)
  | .readField first last => [decimalText first, decimalText last]
  | .writeField first last value => [decimalText first, decimalText last, decimalText value]
  | .replaceRange first last pattern => [decimalText first, decimalText last, bitsText pattern]
  | .equalsRange first last pattern => [decimalText first, decimalText last, bitsText pattern]
  | .setPower on => [decimalText on.toNat]
  | .incTemp => []
  | .decTemp => []
  | .encode bits => [bitsText bits]
  | .transmit => []

/-- Operands separated by commas (R70). -/
def joinOperands : List (List Char) → List Char
  | [] => []
  | [x] => x
  | x :: y :: l => x ++ [',', ' '] ++ joinOperands (y :: l)

/-- The line of text of an instruction (R70). -/
def Instr.text (i : Instr) : List Char :=
  match i.operandTexts with
  | [] => i.op.mnemonic.toList
  | ops => i.op.mnemonic.toList ++ [' '] ++ joinOperands ops

/-- The value of a digit in a base of at most 16. -/
def digitOf (base : Nat) (ch : Char) : Option Nat :=
  let n := ch.toNat
  let d := if 48 ≤ n ∧ n ≤ 57 then n - 48 else if 97 ≤ n ∧ n ≤ 102 then n - 87 else if 65 ≤ n ∧ n ≤ 70 then n - 55 else 16
  if d < base then some d else none

/-- Digits after those already read, whose value is `acc`. -/
def digitsFrom (base : Nat) (acc : Nat) : List Char → Option Nat
  | [] => some acc
  | ch :: l =>
    match digitOf base ch with
    | some d => digitsFrom base (acc * base + d) l
    | none => none

/-- A number in decimal or in `0x` hex (R70). -/
def parseNumber : List Char → Option Nat
  | [] => none
  | '0' :: 'x' :: ch :: l => digitsFrom 16 0 (ch :: l)
  | ch :: l => digitsFrom 10 0 (ch :: l)

/-- The digits of a quoted digit string, up to the closing quote. -/
def parseDigits : List Char → Option (List Bit)
  | ['"'] => some []
  | '0' :: l => (parseDigits l).map (false :: ·)
  | '1' :: l => (parseDigits l).map (true :: ·)
  | _ => none

/-- A quoted digit string, first digit first (R16, R70). -/
def parseBits : List Char → Option (List Bit)
  | '"' :: l => parseDigits l
  | _ => none

/-- `on` is 0 or 1 (R70). -/
def parseOn (l : List Char) : Option Bit :=
  match parseNumber l with
  | some 0 => some false
  | some 1 => some true
  | _ => none

/-- The text without the spaces around it. -/
def trimText (l : List Char) : List Char := ((l.dropWhile (· = ' ')).reverse.dropWhile (· = ' ')).reverse

/-- The pieces of a text between its commas. -/
def splitCommas : List Char → List (List Char)
  | [] => [[]]
  | ch :: l =>
    match splitCommas l with
    | [] => [[ch]]
    | p :: ps => if ch = ',' then [] :: p :: ps else (ch :: p) :: ps

/-- The instruction a row's operands spell (R70); `none` where they spell none. -/
def parseOperands : Op → List (List Char) → Option Instr
  | .readField, [a, b] => do return .readField (← parseNumber a) (← parseNumber b)
  | .writeField, [a, b, v] => do return .writeField (← parseNumber a) (← parseNumber b) (← parseNumber v)
  | .replaceRange, [a, b, p] => do return .replaceRange (← parseNumber a) (← parseNumber b) (← parseBits p)
  | .equalsRange, [a, b, p] => do return .equalsRange (← parseNumber a) (← parseNumber b) (← parseBits p)
  | .setPower, [o] => do return .setPower (← parseOn o)
  | .incTemp, [] => some .incTemp
  | .decTemp, [] => some .decTemp
  | .encode, [b] => do return .encode (← parseBits b)
  | .transmit, [] => some .transmit
  | _, _ => none

/-- The instructions one line stands for: a command, or a pseudo-instruction's expansion (R70, R71). A line whose
operands no encoding can carry is refused (R61, 92 D8). -/
def assembleLine (c : Config) (line : List Char) : Option (List Instr) :=
  let text := trimText line
  let name := text.takeWhile (· ≠ ' ')
  let rest := trimText (text.dropWhile (· ≠ ' '))
  let ops := if rest = [] then [] else (splitCommas rest).map trimText
  match Op.all.find? (fun o => o.mnemonic.toList = name) with
  | some o =>
    match parseOperands o ops with
    | some i => if i.wellFormed c then some [i] else none
    | none => none
  | none =>
    match Pseudo.all.find? (fun p => p.mnemonic.toList = name) with
    | some p => if ops = [] then some p.expand else none
    | none => none

end Sys2Proof
end

