-- ==== Sys2Proof/Machine/Boot.lean ====
section
/-! DEFINITION. The conditions a configuration must meet before any step, and the initial state it then has
(R174). -/

namespace Sys2Proof.Machine

/-- A field lies inside the word: `s <= e < WORD_LEN` (R174 condition 3). -/
def fieldInside (c : Config) (f : Field) : Bool := f.first ≤ f.last && f.last < c.wordLen

/-- R174 condition 1. -/
def carrierPeriodOk (c : Config) : Bool := 1 ≤ c.tHigh + c.tLow
/-- R174 condition 2. -/
def baselineOk (c : Config) : Bool := c.baseline.length == c.wordLen
/-- R174 condition 3. -/
def fieldsOk (c : Config) : Bool := fieldInside c c.fPower && fieldInside c c.fTemp && fieldInside c c.fMirror
/-- R174 condition 4. -/
def powerLiteralsOk (c : Config) : Bool :=
  c.patOn.length == c.fPower.width && c.patOff.length == c.fPower.width
/-- R174 condition 5. -/
def tempLiteralsOk (c : Config) : Bool :=
  c.patTempMax.length == c.fTemp.width && c.patTempMin.length == c.fTemp.width
/-- R174 condition 6, with `VAL_W = 64`. -/
def wordLenOk (c : Config) : Bool := c.wordLen ≤ 63 && c.wordLen ≤ 64
/-- R174 condition 7. -/
def tOneGiven (c : Config) : Bool := c.tOne.isSome
/-- Every configured duration fits a realisation's duration register, if it has one (R12; 92 D7). -/
def durationsFit (c : Config) : Bool :=
  match c.durW with
  | none => true
  | some w => c.tHigh < 2 ^ w && c.tLow < 2 ^ w && c.tLeadGap < 2 ^ w && c.tZero < 2 ^ w && c.oneGap < 2 ^ w
/-- `MAX_ENCODE_BITS` is at most what the COUNT field can carry (R12; 92 D16: a realisation may only lower it). -/
def maxEncodeBitsOk (c : Config) : Bool := c.maxEncodeBits < 2 ^ 19

/-- The configuration is accepted (R174, R12). -/
def configOk (c : Config) : Bool :=
  carrierPeriodOk c && baselineOk c && fieldsOk c && powerLiteralsOk c && tempLiteralsOk c && wordLenOk c &&
    tOneGiven c && durationsFit c && maxEncodeBitsOk c

/-- The initial state of a configuration: none for one that is refused (R174). -/
def initialState (c : Config) : Option State := if configOk c then some (State.resetOf c) else none

end Sys2Proof.Machine
end

