-- ==== Sys2Proof/Machine/Configured.lean ====
section
/-! DEFINITION. The machine of any configuration, passed to every step as an argument (R10, R26). The device's
`exec` and `step` are this machine at `Config.device`. -/

namespace Sys2Proof.Machine

/-- The meaning of every command under configuration `c`. -/
def execOn (c : Config) (i : Instr) (s : State) : Outcome :=
  match i with
  | .readField first last => readFieldOn c first last s
  | .writeField first last value => writeFieldOn c first last value s
  | .replaceRange first last pattern => replaceRangeOn c first last pattern s
  | .equalsRange first last pattern => equalsRangeOn c first last pattern s
  | .setPower on => setPowerOn c on s
  | .incTemp => incTempOn c s
  | .decTemp => decTempOn c s
  | .encode bits => encodeOn c bits s
  | .transmit => transmitOn c s

/-- One step under configuration `c`. -/
def stepOn (c : Config) (s : State) : Outcome := stepWith c (execOn c) s

/-- The state an agent's turn leads to. A turn always leads to one (`Laws.runTurn_next`), so the last cases are never
met. -/
def advance (c : Config) (t : Turn) (s : State) : State :=
  match runTurn c (execOn c) t s with
  | .next s' => s'
  | .fault _ => s
  | .refused _ => s

end Sys2Proof.Machine
end

