-- ==== Sys2Proof/Safety.lean ====
section
/-! DEFINITION. What claims are stated in: the invariants every step keeps (R24, R30, R50), runs and how they end
(R179), and the driver's duty (R177). -/

namespace Sys2Proof.Machine

/-- The invariants of R30. -/
structure Inv (c : Config) (s : State) : Prop where
  /-- `len(CW) = WORD_LEN`. -/
  word : Memory.wf c s.cw = true
  /-- `STATUS.BUSY = 1` if and only if `OUT != none`. -/
  busy : s.status.busy = true ↔ s.out ≠ none
  /-- `STATUS.FAULTED = 1` if and only if `STATUS.FCAUSE != NONE`. -/
  cause : s.status.faulted = true ↔ s.status.fcause ≠ .none
  /-- `STATUS.FAULTED = 1` implies `STATUS.BUSY = 0`. -/
  exclusive : s.status.faulted = true → s.status.busy = false

/-- A pending frame encodes the command word as it stands, which is as it stood at the TRANSMIT (R50). -/
def FrameOfWord (c : Config) (s : State) : Prop :=
  ∀ t, s.out = some t → t = pulseEncode c (memRead s.cw 0 c.wordLen)

/-- RESP holds one of its legal values: a number below `2^WORD_LEN`, and no data beside VALIDATION_ERROR (R24, R151). -/
def RespLegal (c : Config) (s : State) : Prop :=
  (∀ v, s.resp.data = .nat v → v < 2 ^ c.wordLen) ∧ (s.resp.code = .validationError → s.resp.data = .none)

/-- Every timeline the driver has received is the frame of some whole command word (R136, R141). -/
def DeliveredAreFrames (c : Config) (s : State) : Prop :=
  ∀ t ∈ s.delivered, ∃ w : List Bit, w.length = c.wordLen ∧ t = pulseEncode c w

/-- The command that the next step accepts, if the next step is the acceptance of a legal command (R22, R66). -/
def acceptedInstr (c : Config) (s : State) : Option Instr :=
  match s.turns, s.port with
  | .port :: _, cmd :: _ => if portOpen s then (decodeOn c cmd).toOption else none
  | _, _ => none

/-- An instruction is a WRITE_FIELD or REPLACE_RANGE whose range meets a field's indices (R105). -/
def writesDirectly (f : Field) : Instr → Prop
  | .writeField first last _ => first ≤ last ∧ first ≤ f.last ∧ f.first ≤ last
  | .replaceRange first last _ => first ≤ last ∧ first ≤ f.last ∧ f.first ≤ last
  | .readField _ _ => False
  | .equalsRange _ _ _ => False
  | .setPower _ => False
  | .incTemp => False
  | .decTemp => False
  | .encode _ => False
  | .transmit => False

/-- The states the device reaches from reset, whatever is presented and whoever moves, by commands other than
WRITE_FIELD and REPLACE_RANGE on TEMP's indices (R105). -/
inductive ReachedWithoutTempWrite : State → Prop where
  | reset (port : List Command) (turns : List Turn) :
      ReachedWithoutTempWrite { State.reset with port := port, turns := turns }
  | step {s s' : State} : ReachedWithoutTempWrite s →
      (∀ i, acceptedInstr Config.device s = some i → ¬ writesDirectly Config.device.fTemp i) →
      Machine.step s = .next s' → ReachedWithoutTempWrite s'

/-- A run of the block: finitely many turns, from a state (R179). -/
def runTurns (c : Config) (ts : List Turn) (s : State) : State := ts.foldl (fun x t => advance c t x) s

/-- The state reset leaves, with the commands the host is going to present. -/
def presenting (c : Config) (cmds : List Command) : State := { State.resetOf c with port := cmds }

/-- A run ends successfully: no further command, every frame accepted, no fault (R179). -/
def successfulEnd (s : State) : Bool := s.port.isEmpty && s.out.isNone && !s.status.faulted

/-- It halts in a faulted state (R179). -/
def haltedFaulted (s : State) : Bool := s.status.faulted
/-- A frame was never accepted (R179). -/
def frameUnaccepted (s : State) : Bool := s.out.isSome
/-- A command is presented that has not been accepted (R179). -/
def commandUnaccepted (s : State) : Bool := !s.port.isEmpty

/-- What a run leaves: the final CW, RESP and STATUS, and the timelines the driver accepted, in order (R179). -/
structure EndState where
  cw : List Bit
  resp : Resp
  status : Status
  delivered : List (List PulseItem)
deriving DecidableEq, Repr

/-- The end state of a run that ends in `s` (R179). -/
def endState (s : State) : EndState := ⟨s.cw, s.resp, s.status, s.delivered⟩

/-- The states of a run without end, when the agents move in the order `order`. -/
def trajectory (c : Config) (order : Nat → Turn) (s : State) : Nat → State
  | 0 => s
  | n + 1 => advance c (order n) (trajectory c order s n)

/-- Weak fairness of the driver: a driver accept that stays enabled is taken (R177). -/
def DriverFair (c : Config) (order : Nat → Turn) (s : State) : Prop :=
  ∀ n, (∀ m, n ≤ m → driverEnabled (trajectory c order s m) = true) → ∃ m, n ≤ m ∧ order m = .driver

end Sys2Proof.Machine
end

