-- ==== Sys2Proof/Certificates/Slice0/Obligations.lean ====
section
/-! DEFINITION. The statements about the model that the provers settle. Each docstring names the rule of spec/ it
formalises, or says that it is derived. -/

open Sys2Proof Sys2Proof.Machine

/-! ## Encoding -/

/-- R65: the opcode map, and at most one row matches any header. -/
def Obligations.AtMostOneRowMatchesAHeader : Prop :=
  opcodeRows =
    [ ⟨.readField, .r, 0x00000001#32, 0xFFFE001F#32⟩, ⟨.writeField, .rv, 0x00000002#32, 0xFFFE001F#32⟩,
      ⟨.replaceRange, .rp, 0x00000003#32, 0xFF00001F#32⟩, ⟨.equalsRange, .rp, 0x00000004#32, 0xFF00001F#32⟩,
      ⟨.setPower, .p, 0x00000005#32, 0xFFFFFFEF#32⟩, ⟨.incTemp, .n, 0x00000006#32, 0xFFFFFFFF#32⟩,
      ⟨.decTemp, .n, 0x00000007#32, 0xFFFFFFFF#32⟩, ⟨.encode, .e, 0x00000008#32, 0xFF00001F#32⟩,
      ⟨.transmit, .n, 0x00000009#32, 0xFFFFFFFF#32⟩ ] ∧
  (∀ (r : Row) (h : Header), r.selects h = true ↔ h &&& r.mask = r.pattern) ∧
  ∀ h : Header, ∀ r ∈ opcodeRows, ∀ r' ∈ opcodeRows, r.selects h = true → r'.selects h = true → r = r'

/-- Derived (R61–R66): under every configuration, decoding the command of a well-formed instruction gives it
back. That well-formed bounds COUNT by a lowered `MAX_ENCODE_BITS` is the model's reading (notes/assumptions/13.md,
DEDUCED). -/
def Obligations.DecodeInvertsEncode : Prop :=
  ∀ (c : Config) (i : Instr), i.wellFormed c = true → decodeOn c (encode i) = .ok i

/-- Derived (R12, R61–R67, R133): a command that decodes is the command of a well-formed instruction, so every legal
command has one meaning and no bit of it is dropped. Three clauses are the model's: an operand on formats N, P and R
is rejected (notes/assumptions/7.md, DEDUCED), so is a pair that is no word of its length (notes/assumptions/8.md,
DESIGN CHOICE), and so is a COUNT above a lowered `MAX_ENCODE_BITS` (notes/assumptions/13.md, DEDUCED). -/
def Obligations.EncodeInvertsDecode : Prop :=
  ∀ (c : Config) (cmd : Command) (i : Instr), decodeOn c cmd = .ok i → encode i = cmd ∧ i.wellFormed c = true

/-- Derived (R62, R67; that a command of format N, P or R carries no data operand is notes/assumptions/7.md, DEDUCED):
exactly these commands are illegal. -/
def Obligations.IllegalCommandsAreExactlyTheListed : Prop :=
  ∀ cmd : Command, cmd.data.wellFormed = true →
    ((∃ r, decode cmd = .error r) ↔
      (opField cmd.header = 0 ∨ 10 ≤ opField cmd.header) ∨ rsvField cmd.header ≠ 0 ∨
      (opField cmd.header ∈ [1, 2] ∧ (onField cmd.header ≠ 0 ∨ lenField cmd.header ≠ 0)) ∨
      (opField cmd.header ∈ [3, 4, 8] ∧ onField cmd.header ≠ 0) ∨
      (opField cmd.header = 5 ∧ countField cmd.header ≠ 0) ∨
      (opField cmd.header ∈ [6, 7, 9] ∧ (onField cmd.header ≠ 0 ∨ countField cmd.header ≠ 0)) ∨
      (opField cmd.header ∈ [1, 5, 6, 7, 9] ∧ cmd.data.len ≠ 0) ∨
      (opField cmd.header = 2 ∧ cmd.data.len ≠ 64) ∨
      (opField cmd.header ∈ [3, 4] ∧ cmd.data.len ≠ lenField cmd.header) ∨
      (opField cmd.header = 8 ∧ cmd.data.len ≠ countField cmd.header))

/-- R69: a command's total length, from its header alone. -/
def Obligations.HeaderFixesTheTotalLength : Prop :=
  (∀ h : Header, ∀ r, rowOf h = some r → commandLen h = some
    (match r.format with
      | .n => 32
      | .p => 32
      | .r => 32
      | .rv => 32 + 64
      | .rp => 32 + lenField h
      | .e => 32 + countField h)) ∧
  ∀ i : Instr, i.wellFormed Config.device = true →
    commandLen (encode i).header = some (32 + (encode i).data.len)

/-- Derived (R61, R63, R65): the worked header encodings of R72, the spec's own inference, both ways. -/
def Obligations.WorkedHeadersDecode : Prop :=
  (∀ p ∈ [ (Instr.readField 12 15, Command.mk 0x00007981#32 ⟨0, 0⟩), (.readField 40 43, ⟨0x00015D01#32, ⟨0, 0⟩⟩),
      (.readField 0 43, ⟨0x00015801#32, ⟨0, 0⟩⟩),
      (.replaceRange 4 7 [true, false, false, false], ⟨0x00083883#32, ⟨4, 0b1000⟩⟩),
      (.equalsRange 12 15 [true, false, true, true], ⟨0x00087984#32, ⟨4, 0b1011⟩⟩),
      (.encode [true, false], ⟨0x00000048#32, ⟨2, 0b10⟩⟩) ],
    encode p.1 = p.2 ∧ decode p.2 = .ok p.1) ∧
  ∀ v < 2 ^ 64, encode (.writeField 12 15 v) = ⟨0x00007982#32, ⟨64, v⟩⟩ ∧
    decode ⟨0x00007982#32, ⟨64, v⟩⟩ = .ok (.writeField 12 15 v)

/-- R71: the pseudo-instructions' expansions and their encodings. -/
def Obligations.PseudoInstructionsExpand : Prop :=
  Pseudo.expand .powerOn = [.setPower true] ∧ Pseudo.expand .powerOff = [.setPower false] ∧
  Pseudo.expand .evPowerOn = [.setPower true, .transmit] ∧ Pseudo.expand .evPowerOff = [.setPower false, .transmit] ∧
  Pseudo.expand .evTempUp = [.incTemp, .transmit] ∧ Pseudo.expand .evTempDown = [.decTemp, .transmit] ∧
  [Instr.setPower true, .setPower false, .incTemp, .decTemp, .transmit].map encode =
    [⟨0x00000015#32, ⟨0, 0⟩⟩, ⟨0x00000005#32, ⟨0, 0⟩⟩, ⟨0x00000006#32, ⟨0, 0⟩⟩, ⟨0x00000007#32, ⟨0, 0⟩⟩,
      ⟨0x00000009#32, ⟨0, 0⟩⟩]

/-- Derived (R70): the assembler reads the text of a well-formed instruction as that instruction. The details of the
text are the model's choice (notes/assumptions/21.md), the bound on COUNT its reading (13.md). -/
def Obligations.AssemblerReadsInstructionText : Prop :=
  ∀ (c : Config) (i : Instr), i.wellFormed c = true → assembleLine c i.text = some [i]

/-! ## The step -/

/-- Derived (R22, R66, R137): when the port has the turn and is open, and the presented command decodes, the step is
the instruction's effect on the state with the turn taken and the command gone from the port. Turns and port are the
model's own (notes/assumptions/3.md, 18.md). -/
def Obligations.StepRunsTheDecodedInstruction : Prop :=
  ∀ (s : State) (ts : List Turn) (cmd : Command) (rest : List Command) (i : Instr),
    s.turns = .port :: ts → s.port = cmd :: rest → s.status.faulted = false → s.status.busy = false →
    decode cmd = .ok i → step s = exec i { s with turns := ts, port := rest }

/-- Derived (R63, R66): a well-formed instruction's command, laid out as one number, runs as the very next step of a
device whose port is open (the placing is notes/assumptions/10.md, DESIGN CHOICE). -/
def Obligations.PlacedCommandRunsNext : Prop :=
  ∀ (i : Instr) (s : State), i.wellFormed Config.device = true → s.status.faulted = false → s.status.busy = false →
    step (s.withFetchWord (32 + (encode i).data.len) ((encode i).header.toNat + 2 ^ 32 * (encode i).data.val)) = exec i s

/-- Derived (the schedule is notes/assumptions/3.md and 4.md, DESIGN CHOICE): a step stops only where no agent has a
turn; every other step leads to a next state, which has one turn less; and the port's turn with nothing presented
changes nothing else. -/
def Obligations.EveryTurnLeadsToANextState : Prop :=
  ∀ s : State, (s.turns = [] → step s = .fault .environmentEnded) ∧
    (∀ t ts, s.turns = t :: ts → ∃ s', step s = .next s' ∧ s'.turns = ts) ∧
    ∀ ts, s.turns = .port :: ts → s.port = [] → step s = .next { s with turns := ts }

/-- R170: reset sets every state element to its reset value in one step. -/
def Obligations.ResetSetsEveryElement : Prop :=
  (∀ (s : State) (ts : List Turn), s.turns = .reset :: ts → ∃ s', step s = .next s' ∧
    s'.cw = [false, false, true, false, true, false, false, false, false, true, false, false, true, false, false, false,
      false, false, false, false, false, false, false, false, false, false, false, false, false, false, false, false,
      false, false, false, false, false, false, false, false, true, false, false, true] ∧
    s'.status = ⟨false, false, .none⟩ ∧ s'.status.word = 0x00#8 ∧ s'.resp = ⟨.ok, .none⟩ ∧ s'.out = none) ∧
  ∀ (c : Config) (s : State) (ts : List Turn), s.turns = .reset :: ts → ∃ s', stepOn c s = .next s' ∧
    s'.cw = c.baseline ∧ s'.status = ⟨false, false, .none⟩ ∧ s'.resp = ⟨.ok, .none⟩ ∧ s'.out = none

/-- R171: reset is enabled in every state, discards a pending frame, and is the only step that clears FAULTED. -/
def Obligations.OnlyResetClearsFaulted : Prop :=
  (∀ (s : State) (ts : List Turn), s.turns = .reset :: ts → ∃ s', step s = .next s' ∧
    s'.out = none ∧ s'.status.faulted = false ∧ s'.delivered = s.delivered) ∧
  ∀ s s' : State, step s = .next s' → s.status.faulted = true → s'.status.faulted = false → s.turns.head? = some .reset

/-- Derived (R153, R66): what taking a fault writes, for both faults; the fault is sticky and no successful end. That
the refused command leaves the port and that a held turn passes are the model's choices (notes/assumptions/5.md,
18.md). -/
def Obligations.FaultIsTakenAndSticky : Prop :=
  (∀ (s : State) (ts : List Turn) (cmd : Command) (rest : List Command) (r : Reject),
    s.turns = .port :: ts → s.port = cmd :: rest → s.status.faulted = false → s.status.busy = false →
    decode cmd = .error r →
    step s = .next { s with turns := ts, port := rest, status := ⟨false, true, .illegalCommand⟩ }) ∧
  (∀ (i : Instr) (s s' : State), exec i s = .next s' → s.status.faulted = false → s'.status.faulted = true →
    s' = { s with status := ⟨s.status.busy, true, .rangeError⟩ }) ∧
  (∀ (s : State) (ts : List Turn), s.status.faulted = true → s.turns = .port :: ts →
    step s = .next { s with turns := ts }) ∧
  (∀ s s' : State, step s = .next s' → s.status.faulted = true →
    (s'.status.faulted = true ∧ s'.status.fcause = s.status.fcause) ∨ s.turns.head? = some .reset) ∧
  ∀ s : State, s.status.faulted = true → successfulEnd s = false

/-- Derived (R137, R171): while BUSY the port accepts no command, and only a driver accept or a reset ends that. That
a held command's turn passes is the model's choice (notes/assumptions/5.md). -/
def Obligations.BusyHoldsEveryCommand : Prop :=
  (∀ (s : State) (ts : List Turn), s.status.busy = true → s.turns = .port :: ts →
    step s = .next { s with turns := ts }) ∧
  (∀ s s' : State, step s = .next s' → s.status.busy = true → s'.status.busy = false →
    s.turns.head? = some .driver ∨ s.turns.head? = some .reset) ∧
  ∀ (s : State) (ts : List Turn), s.status.busy = true → s.turns = .reset :: ts → ∃ s', step s = .next s'

/-- Derived (R136): driver accept delivers the pending timeline, whole, and clears OUT and BUSY; without a frame it is
not enabled, and the turn passes, which is the model's choice (notes/assumptions/3.md). -/
def Obligations.DriverAcceptDeliversTheFrame : Prop :=
  (∀ (s : State) (ts : List Turn) (t : List PulseItem), s.turns = .driver :: ts → s.out = some t →
    step s = .next { s with
      turns := ts, out := none, status := { s.status with busy := false }, delivered := s.delivered ++ [t] }) ∧
  ∀ (s : State) (ts : List Turn), s.turns = .driver :: ts → s.out = none → step s = .next { s with turns := ts }

/-- Derived (R158): a command and a driver accept are never both enabled. -/
def Obligations.CommandAndAcceptNeverBothEnabled : Prop :=
  ∀ (c : Config) (s : State), Inv c s → ¬ (portOpen s = true ∧ driverEnabled s = true)

/-- Derived (R172): a device just reset accepts and runs the command that is presented. -/
def Obligations.ResetDeviceAcceptsAtOnce : Prop :=
  ∀ (cmd : Command) (i : Instr), decode cmd = .ok i →
    step { State.reset with port := [cmd], turns := [.port] } = exec i State.reset

/-- Derived (R159): errors are precise, at the step: a command that faults leaves every element but STATUS.
That it leaves the port is the model's reading (notes/assumptions/18.md, DEDUCED). -/
def Obligations.FaultingStepIsPrecise : Prop :=
  ∀ s s' : State, step s = .next s' → s.status.faulted = false → s'.status.faulted = true →
    s'.cw = s.cw ∧ s'.resp = s.resp ∧ s'.out = s.out ∧ s'.status.busy = s.status.busy ∧ s'.delivered = s.delivered ∧
      s'.port = s.port.tail

/-! ## Invariants -/

/-- Derived (R23, R25, R137, R153): the invariants of R30, the spec's own inference, which every step keeps under every
accepted configuration and on the device. -/
def Obligations.StepKeepsTheInvariants : Prop :=
  (∀ (c : Config) (s s' : State), configOk c = true → Inv c s → stepOn c s = .next s' → Inv c s') ∧
  ∀ s s' : State, Inv Config.device s → step s = .next s' → Inv Config.device s'

/-- Derived (R29, R30, R179): the invariants hold at reset. That nothing has been received then, which
`DeliveredAreFrames` rests on, is the model's choice (notes/assumptions/24.md). -/
def Obligations.ResetMeetsTheInvariants : Prop :=
  (∀ c : Config, configOk c = true →
    Inv c (State.resetOf c) ∧ FrameOfWord c (State.resetOf c) ∧ RespLegal c (State.resetOf c) ∧
      DeliveredAreFrames c (State.resetOf c)) ∧
  configOk Config.device = true ∧ Inv Config.device State.reset

/-- R50: TRANSMIT's frame encodes the word as it stood then, the word cannot change while the frame is pending, and so
the pending frame encodes the word as it stands, after every step. -/
def Obligations.PendingFrameEncodesTheWord : Prop :=
  (∀ (c : Config) (s : State), ∃ s', execOn c .transmit s = .next s' ∧
    s'.out = some (pulseEncode c (memRead s.cw 0 c.wordLen))) ∧
  (∀ (c : Config) (s s' : State), s.status.busy = true → stepOn c s = .next s' → s.turns.head? ≠ some .reset →
    s'.cw = s.cw) ∧
  ∀ (c : Config) (s s' : State), Inv c s → FrameOfWord c s → stepOn c s = .next s' → FrameOfWord c s'

/-- Derived (R24, R81, R151): RESP holds a legal value after every step. -/
def Obligations.StepKeepsRespLegal : Prop :=
  ∀ (c : Config) (s s' : State), RespLegal c s → stepOn c s = .next s' → RespLegal c s'

/-- Derived (R136, R140, R141): the driver receives frames of whole words only, each once, in order. -/
def Obligations.DriverReceivesFramesInOrder : Prop :=
  (∀ (c : Config) (s s' : State), Inv c s → FrameOfWord c s → DeliveredAreFrames c s → stepOn c s = .next s' →
    DeliveredAreFrames c s') ∧
  ∀ (c : Config) (s s' : State), stepOn c s = .next s' →
    s'.delivered = s.delivered ∨
      ∃ t, s.turns.head? = some .driver ∧ s.out = some t ∧ s'.delivered = s.delivered ++ [t] ∧ s'.out = none

/-- Derived (R29, R102, R103), R105 being the spec's own inference: in every state reached from reset without a direct
write to TEMP's indices, TEMP is in [0, 11], and no INC_TEMP or DEC_TEMP takes it across a limit. -/
def Obligations.ReachableTemperatureStaysInRange : Prop :=
  fieldVal Config.device.fTemp State.reset = 8 ∧
  ∀ s : State, ReachedWithoutTempWrite s →
    fieldVal Config.device.fTemp s ≤ 11 ∧
    (∃ t, exec .incTemp s = .next t ∧ fieldVal Config.device.fTemp t =
      if fieldVal Config.device.fTemp s = 11 then 11 else fieldVal Config.device.fTemp s + 1) ∧
    (∃ t, exec .decTemp s = .next t ∧ fieldVal Config.device.fTemp t =
      if fieldVal Config.device.fTemp s = 0 then 0 else fieldVal Config.device.fTemp s - 1)

/-- Derived (R102, R103), the step lemma under R105, the spec's own inference: TEMP at most 11, with a word of 44 cells,
is kept by every step whose accepted instruction does not write TEMP's indices directly, and holds at reset. -/
def Obligations.StepKeepsTheTemperatureRange : Prop :=
  (∀ s s' : State, Memory.wf Config.device s.cw = true → fieldVal Config.device.fTemp s ≤ 11 →
    (∀ i, acceptedInstr Config.device s = some i → ¬ writesDirectly Config.device.fTemp i) → step s = .next s' →
    Memory.wf Config.device s'.cw = true ∧ fieldVal Config.device.fTemp s' ≤ 11) ∧
  Memory.wf Config.device State.reset.cw = true ∧ fieldVal Config.device.fTemp State.reset ≤ 11

/-- Derived (R42, R101–R103): the cells of no named field change only by WRITE_FIELD, REPLACE_RANGE or reset. -/
def Obligations.UnnamedCellsKeepTheirBits : Prop :=
  ∀ (s s' : State) (j : Nat), (j ≤ 3 ∨ (8 ≤ j ∧ j ≤ 11) ∨ (16 ≤ j ∧ j ≤ 39)) → step s = .next s' →
    s.turns.head? ≠ some .reset →
    (∀ first last v, acceptedInstr Config.device s ≠ some (.writeField first last v)) →
    (∀ first last p, acceptedInstr Config.device s ≠ some (.replaceRange first last p)) →
    s'.cell j = s.cell j

/-- Derived (R21): the command word changes only by a reset or an accepted WRITE_FIELD, REPLACE_RANGE, SET_POWER,
INC_TEMP or DEC_TEMP. -/
def Obligations.OnlyWordCommandsChangeTheWord : Prop :=
  ∀ (c : Config) (s s' : State), stepOn c s = .next s' → s'.cw ≠ s.cw → s.turns.head? = some .reset ∨
    ∃ i, acceptedInstr c s = some i ∧ i.op ∈ [Op.writeField, .replaceRange, .setPower, .incTemp, .decTemp]

/-- Derived (R25, R171): a frame enters OUT only by an accepted TRANSMIT and leaves it only by a driver accept or a
reset. -/
def Obligations.OnlyTransmitFillsTheBuffer : Prop :=
  ∀ (c : Config) (s s' : State), Inv c s → stepOn c s = .next s' →
    (s.out = none → s'.out ≠ none → acceptedInstr c s = some .transmit) ∧
    ∀ t, s.out = some t → s'.out = some t ∨
      (s'.out = none ∧ (s.turns.head? = some .driver ∨ s.turns.head? = some .reset))

/-- Derived (R138): a driver that never gets its turn leaves the NPE BUSY for ever, with every command held; and a
faulted NPE has no step but reset (R153). That the turns then pass, with the command still presented, is the model's
choice (notes/assumptions/3.md, 5.md, 23.md). -/
def Obligations.NoDriverTurnIsAHang : Prop :=
  (∀ (n : Nat) (s : State) (ts : List Turn), s.status.busy = true → s.turns = List.replicate n .port ++ ts →
    Host.Core.run Sys2Proof.core n s = .next { s with turns := ts }) ∧
  ∀ (us : List Turn) (s : State) (ts : List Turn), s.status.faulted = true → s.out = none → Turn.reset ∉ us →
    s.turns = us ++ ts → Host.Core.run Sys2Proof.core us.length s = .next { s with turns := ts }

/-- Derived (R177): under weak fairness of the driver a pending frame is delivered, unless a reset comes
first. The order of turns is the model's form of the schedule (notes/assumptions/3.md, 23.md). -/
def Obligations.FairDriverAcceptsTheFrame : Prop :=
  ∀ (c : Config) (order : Nat → Turn) (s : State) (t : List PulseItem), Inv c s → DriverFair c order s →
    s.out = some t → ∃ n, (∀ k < n, order k = .port) ∧
      (order n = .reset ∨ (order n = .driver ∧
        (trajectory c order s (n + 1)).delivered = s.delivered ++ [t] ∧
        (trajectory c order s (n + 1)).out = none ∧ (trajectory c order s (n + 1)).status.busy = false))

/-- Derived (R23, R30, R179): where the invariants hold, a run ends successfully exactly when nothing is presented and
STATUS reads 0x00. -/
def Obligations.SuccessfulEndReadsZeroStatus : Prop :=
  ∀ (c : Config) (s : State), Inv c s → (successfulEnd s = true ↔ s.port = [] ∧ s.status.word = 0x00#8)

/-- Derived (R23, R24, R150): the places of STATUS's fields; the reserved bits read 0 and FCAUSE is never 3; the codes
of FCAUSE and of RESP.code; and STATUS as it reads once an idle block has taken each fault. -/
def Obligations.StatusWordHasItsFields : Prop :=
  (∀ x : Status, x.word.getLsbD 0 = x.busy ∧ x.word.getLsbD 1 = x.faulted ∧
    (x.word.extractLsb' 2 2).toNat = x.fcause.code ∧ x.word.extractLsb' 4 4 = 0#4 ∧ x.fcause.code ≠ 3) ∧
  (FaultCause.none.code = 0 ∧ FaultCause.rangeError.code = 1 ∧ FaultCause.illegalCommand.code = 2) ∧
  (RespCode.ok.code = 0 ∧ RespCode.validationError.code = 1) ∧
  ∀ s : State, s.status.busy = false →
    (takeFault .rangeError s).status.word = 0x06#8 ∧ (takeFault .illegalCommand s).status.word = 0x0A#8

/-! ## BitWord primitives -/

/-- R80, R81: READ_FIELD answers the big-endian value of the field, below `2^(e-s+1)`, and changes nothing else; a
malformed range takes RangeError. -/
def Obligations.ReadFieldAnswersTheField : Prop :=
  (∀ (first last : Nat) (s : State), Memory.wf Config.device s.cw = true → first ≤ last → last < 44 →
    ∃ v, exec (.readField first last) s = .next { s with resp := ⟨.ok, .nat v⟩ } ∧ v < 2 ^ (last - first + 1) ∧
      ∀ j, first ≤ j → j ≤ last → s.cell j = some (v.testBit (last - j))) ∧
  ∀ (first last : Nat) (s : State), last < first ∨ 44 ≤ last →
    exec (.readField first last) s = .next { s with status := ⟨s.status.busy, true, .rangeError⟩ }

/-- R82, R83, R84: WRITE_FIELD writes the low bits of the value, most significant first, into the field alone; a
malformed range takes RangeError and writes no cell. -/
def Obligations.WriteFieldWritesTheField : Prop :=
  (∀ (first last value : Nat) (s : State), Memory.wf Config.device s.cw = true → first ≤ last → last < 44 →
    ∃ cw, exec (.writeField first last value) s = .next { s with cw := cw, resp := ⟨.ok, .none⟩ } ∧ cw.length = 44 ∧
      bitsVal (memRead cw first (last - first + 1)) = value % 2 ^ (last - first + 1) ∧
      (∀ j, first ≤ j → j ≤ last → cw[j]? = some (value.testBit (last - j))) ∧
      ∀ j, j < first ∨ last < j → cw[j]? = s.cell j) ∧
  ∀ (first last value : Nat) (s : State), last < first ∨ 44 ≤ last →
    exec (.writeField first last value) s = .next { s with status := ⟨s.status.busy, true, .rangeError⟩ }

/-- R90, R91: under every configuration, what is written into a field is read back, modulo `2^k`. -/
def Obligations.WriteThenReadGivesTheValueModulo : Prop :=
  ∀ (c : Config) (first last v : Nat) (s : State), Memory.wf c s.cw = true → first ≤ last → last < c.wordLen →
    ∃ t u, execOn c (.writeField first last v) s = .next t ∧ execOn c (.readField first last) t = .next u ∧
      u.resp = ⟨.ok, .nat (v % 2 ^ (last - first + 1))⟩ ∧
      (v < 2 ^ (last - first + 1) → u.resp = ⟨.ok, .nat v⟩)

/-- Derived (R83), R64 being the spec's own inference: for any natural number, writing its low 64 bits leaves what
writing it would leave, and the field holds it modulo `2^k`. -/
def Obligations.SixtyFourBitsOfValueSuffice : Prop :=
  ∀ (c : Config) (first last v : Nat) (s : State), c.wordLen ≤ 64 →
    execOn c (.writeField first last (v % 2 ^ 64)) s = execOn c (.writeField first last v) s ∧
    (Memory.wf c s.cw = true → first ≤ last → last < c.wordLen →
      ∃ t, execOn c (.writeField first last (v % 2 ^ 64)) s = .next t ∧
        bitsVal (memRead t.cw first (last - first + 1)) = v % 2 ^ (last - first + 1))

/-- R85, R86: REPLACE_RANGE writes the whole pattern or nothing. That the empty replacement with `s = e + 1` succeeds
is R87, the spec's own inference from R86. -/
def Obligations.ReplaceRangeIsAllOrNothing : Prop :=
  (∀ (first last : Nat) (pattern : List Bit) (s : State),
    44 ≤ last ∨ (pattern.length : Int) ≠ (last : Int) - first + 1 →
    exec (.replaceRange first last pattern) s = .next { s with resp := ⟨.validationError, .none⟩ }) ∧
  (∀ (first last : Nat) (pattern : List Bit) (s : State), Memory.wf Config.device s.cw = true → last < 44 →
    (pattern.length : Int) = (last : Int) - first + 1 →
    ∃ cw, exec (.replaceRange first last pattern) s = .next { s with cw := cw, resp := ⟨.ok, .none⟩ } ∧
      cw.length = 44 ∧ (∀ j < pattern.length, cw[first + j]? = pattern[j]?) ∧
      ∀ j, j < first ∨ last < j → cw[j]? = s.cell j) ∧
  ∀ (last : Nat) (s : State), last < 44 →
    exec (.replaceRange (last + 1) last []) s = .next { s with resp := ⟨.ok, .none⟩ }

/-- R88, R89: EQUALS_RANGE answers false on a length mismatch, whatever the indices; then takes RangeError when the
range ends beyond the word; else answers whether every cell equals the pattern's bit. -/
def Obligations.EqualsRangeComparesTheCells : Prop :=
  (∀ (first last : Nat) (pattern : List Bit) (s : State), (pattern.length : Int) ≠ (last : Int) - first + 1 →
    exec (.equalsRange first last pattern) s = .next { s with resp := ⟨.ok, .bool false⟩ }) ∧
  (∀ (first last : Nat) (pattern : List Bit) (s : State), (pattern.length : Int) = (last : Int) - first + 1 →
    44 ≤ last →
    exec (.equalsRange first last pattern) s = .next { s with status := ⟨s.status.busy, true, .rangeError⟩ }) ∧
  ∀ (first last : Nat) (pattern : List Bit) (s : State), Memory.wf Config.device s.cw = true →
    (pattern.length : Int) = (last : Int) - first + 1 → last < 44 →
    ∃ b, exec (.equalsRange first last pattern) s = .next { s with resp := ⟨.ok, .bool b⟩ } ∧
      (b = true ↔ ∀ j < pattern.length, s.cell (first + j) = pattern[j]?)

/-- R92: the frame of the four primitives, where none of them faults. -/
def Obligations.PrimitivesChangeOnlyTheirRange : Prop :=
  ∀ (i : Instr) (s t : State), exec i s = .next t → s.status.faulted = false → t.status.faulted = false →
    match i with
    | .readField _ _ => t = { s with resp := t.resp }
    | .equalsRange _ _ _ => t = { s with resp := t.resp }
    | .writeField first last _ =>
      t = { s with cw := t.cw, resp := t.resp } ∧ ∀ j, j < first ∨ last < j → t.cell j = s.cell j
    | .replaceRange first last _ =>
      t = { s with cw := t.cw, resp := t.resp } ∧ (∀ j, j < first ∨ last < j → t.cell j = s.cell j) ∧
        (t.resp.code = .validationError → t = { s with resp := t.resp })
    | .setPower _ => True
    | .incTemp => True
    | .decTemp => True
    | .encode _ => True
    | .transmit => True

/-- Derived (R80–R93, R101–R103, R135), R48 being the spec's own inference: reads have no side effects, field writes
and SET_POWER are idempotent, INC_TEMP and DEC_TEMP are not, and TRANSMIT's side effect is on OUT and BUSY. -/
def Obligations.ReadsArePureAndWritesIdempotent : Prop :=
  (∀ (first last : Nat) (pattern : List Bit), ∀ i ∈ [Instr.readField first last, .equalsRange first last pattern],
    ∀ s t : State, exec i s = .next t → t.status = s.status → t = { s with resp := t.resp } ∧ exec i t = .next t) ∧
  (∀ (first last value : Nat) (pattern : List Bit) (on : Bit),
    ∀ i ∈ [Instr.writeField first last value, .replaceRange first last pattern, .setPower on],
    ∀ s t u : State, exec i s = .next t → exec i t = .next u → u.cw = t.cw) ∧
  (∀ i ∈ [Instr.incTemp, .decTemp], ∃ s t u : State, exec i s = .next t ∧ exec i t = .next u ∧ u.cw ≠ t.cw) ∧
  ∀ s : State, ∃ f, exec .transmit s =
    .next { s with out := some f, status := { s.status with busy := true }, resp := ⟨.ok, .none⟩ }

/-- Derived (R43, R80, R82), R44 being the spec's own inference: reads of any width see the same cells (a read of one
cell answers it, a read over two adjacent ranges joins the two reads); the worked reads of BASELINE; writes through
overlapping ranges take effect in order. -/
def Obligations.MixedWidthReadsAgree : Prop :=
  (∀ (a : Nat) (s : State) (b : Bit), Memory.wf Config.device s.cw = true → s.cell a = some b →
    exec (.readField a a) s = .next { s with resp := ⟨.ok, .nat b.toNat⟩ }) ∧
  (∀ (a m b : Nat) (s : State), Memory.wf Config.device s.cw = true → a ≤ m → m < b → b < 44 →
    ∃ x y, exec (.readField a m) s = .next { s with resp := ⟨.ok, .nat x⟩ } ∧
      exec (.readField (m + 1) b) s = .next { s with resp := ⟨.ok, .nat y⟩ } ∧
      exec (.readField a b) s = .next { s with resp := ⟨.ok, .nat (x * 2 ^ (b - m) + y)⟩ }) ∧
  exec (.readField 0 7) State.reset = .next { State.reset with resp := ⟨.ok, .nat 40⟩ } ∧
  exec (.readField 4 7) State.reset = .next { State.reset with resp := ⟨.ok, .nat 8⟩ } ∧
  exec (.readField 0 43) State.reset = .next { State.reset with resp := ⟨.ok, .nat 0x28480000009⟩ } ∧
  ∀ (a b x first last y : Nat) (s : State), Memory.wf Config.device s.cw = true → a ≤ b → b < 44 → first ≤ last →
    last < 44 → ∃ t u, exec (.writeField a b x) s = .next t ∧ exec (.writeField first last y) t = .next u ∧
      ∀ j, u.cell j = if first ≤ j ∧ j ≤ last then some (y.testBit (last - j))
        else if a ≤ j ∧ j ≤ b then some (x.testBit (b - j)) else s.cell j

/-! ## CommandState mutators -/

/-- R101: SET_POWER writes its literal into cells 4 to 7, whatever they held, and nothing else. -/
def Obligations.SetPowerWritesItsLiteral : Prop :=
  ∀ (on : Bit) (s : State), Memory.wf Config.device s.cw = true →
    ∃ cw, exec (.setPower on) s = .next { s with cw := cw, resp := ⟨.ok, .none⟩ } ∧ cw.length = 44 ∧
      cw[4]? = some on ∧ cw[5]? = some false ∧ cw[6]? = some false ∧ cw[7]? = some false ∧
      ∀ j, j < 4 ∨ 7 < j → cw[j]? = s.cell j

/-- R102: INC_TEMP. Blocked at 1011; else TEMP plus 1 with truncation, MIRROR minus 1 floored at zero, and no other
cell. -/
def Obligations.IncTempStepsTempAndMirror : Prop :=
  ∀ s : State, Memory.wf Config.device s.cw = true →
    (memRead s.cw 12 4 = [true, false, true, true] →
      exec .incTemp s = .next { s with resp := ⟨.ok, .none⟩ }) ∧
    (memRead s.cw 12 4 ≠ [true, false, true, true] →
      ∃ cw, exec .incTemp s = .next { s with cw := cw, resp := ⟨.ok, .none⟩ } ∧ cw.length = 44 ∧
        bitsVal (memRead cw 12 4) = (bitsVal (memRead s.cw 12 4) + 1) % 2 ^ 4 ∧
        bitsVal (memRead cw 40 4) = bitsVal (memRead s.cw 40 4) - 1 ∧
        ∀ j, j < 12 ∨ (15 < j ∧ j < 40) ∨ 43 < j → cw[j]? = s.cell j)

/-- R103: DEC_TEMP. Blocked at 0000; else TEMP minus 1 floored at zero, MIRROR plus 1 with truncation, and no other
cell. -/
def Obligations.DecTempStepsTempAndMirror : Prop :=
  ∀ s : State, Memory.wf Config.device s.cw = true →
    (memRead s.cw 12 4 = [false, false, false, false] →
      exec .decTemp s = .next { s with resp := ⟨.ok, .none⟩ }) ∧
    (memRead s.cw 12 4 ≠ [false, false, false, false] →
      ∃ cw, exec .decTemp s = .next { s with cw := cw, resp := ⟨.ok, .none⟩ } ∧ cw.length = 44 ∧
        bitsVal (memRead cw 12 4) = bitsVal (memRead s.cw 12 4) - 1 ∧
        bitsVal (memRead cw 40 4) = (bitsVal (memRead s.cw 40 4) + 1) % 2 ^ 4 ∧
        ∀ j, j < 12 ∨ (15 < j ∧ j < 40) ∨ 43 < j → cw[j]? = s.cell j)

/-- R106: at its limit pattern a temperature command leaves all of CW, under every configuration. -/
def Obligations.LimitPatternBlocksTheChange : Prop :=
  (∀ (c : Config) (s : State), fieldBits c.fTemp s = c.patTempMax →
    execOn c .incTemp s = .next { s with resp := ⟨.ok, .none⟩ }) ∧
  ∀ (c : Config) (s : State), fieldBits c.fTemp s = c.patTempMin →
    execOn c .decTemp s = .next { s with resp := ⟨.ok, .none⟩ }

/-- Derived (R107, for fields that do not overlap): the exact coupling of TEMP and MIRROR under every accepted
configuration, asymmetric as R104 keeps it. -/
def Obligations.TempAndMirrorCoupleAsymmetrically : Prop :=
  ∀ (c : Config) (s : State), configOk c = true → Memory.wf c s.cw = true →
    (c.fTemp.last < c.fMirror.first ∨ c.fMirror.last < c.fTemp.first) →
    (fieldVal c.fTemp s ≠ bitsVal c.patTempMax → ∃ t, execOn c .incTemp s = .next t ∧
      fieldVal c.fTemp t = (fieldVal c.fTemp s + 1) % 2 ^ c.fTemp.width ∧
      fieldVal c.fMirror t = fieldVal c.fMirror s - 1) ∧
    (fieldVal c.fTemp s ≠ bitsVal c.patTempMin → ∃ t, execOn c .decTemp s = .next t ∧
      fieldVal c.fTemp t = fieldVal c.fTemp s - 1 ∧
      fieldVal c.fMirror t = (fieldVal c.fMirror s + 1) % 2 ^ c.fMirror.width)

/-- Derived (R102, R103), R108 being the spec's own inference: no relation between MIRROR and TEMP is kept: a command
keeps their sum exactly when it is blocked or floors and truncates neither field, and DEC_TEMP from TEMP 2, MIRROR 15
gives TEMP 1, MIRROR 0. -/
def Obligations.TempMirrorSumIsNoInvariant : Prop :=
  fieldVal Config.device.fTemp State.reset + fieldVal Config.device.fMirror State.reset = 17 ∧
  (∀ s t : State, Memory.wf Config.device s.cw = true → exec .incTemp s = .next t →
    (fieldVal Config.device.fTemp t + fieldVal Config.device.fMirror t =
      fieldVal Config.device.fTemp s + fieldVal Config.device.fMirror s ↔
      fieldVal Config.device.fTemp s = 11 ∨
        (fieldVal Config.device.fTemp s ≠ 15 ∧ fieldVal Config.device.fMirror s ≠ 0))) ∧
  (∀ s t : State, Memory.wf Config.device s.cw = true → exec .decTemp s = .next t →
    (fieldVal Config.device.fTemp t + fieldVal Config.device.fMirror t =
      fieldVal Config.device.fTemp s + fieldVal Config.device.fMirror s ↔
      fieldVal Config.device.fTemp s = 0 ∨ fieldVal Config.device.fMirror s ≠ 15)) ∧
  ∀ s : State, Memory.wf Config.device s.cw = true → fieldVal Config.device.fTemp s = 2 →
    fieldVal Config.device.fMirror s = 15 →
    ∃ t, exec .decTemp s = .next t ∧ fieldVal Config.device.fTemp t = 1 ∧ fieldVal Config.device.fMirror t = 0

/-- Derived (R100, R156): under an accepted configuration the primitives' own validation holds for the mutators'
fields and literals, and a mutator never raises an error and never answers VALIDATION_ERROR. -/
def Obligations.MutatorsNeverFail : Prop :=
  ∀ (c : Config), configOk c = true →
    (replaceInvalid c c.fPower.first c.fPower.last c.patOn = false ∧
      replaceInvalid c c.fPower.first c.fPower.last c.patOff = false ∧
      fieldOutOfRange c c.fTemp.first c.fTemp.last = false ∧
      fieldOutOfRange c c.fMirror.first c.fMirror.last = false) ∧
    ∀ (on : Bit) (s : State), ∀ i ∈ [Instr.setPower on, .incTemp, .decTemp],
      ∃ cw, execOn c i s = .next { s with cw := cw, resp := ⟨.ok, .none⟩ } ∧ cw.length = s.cw.length

/-- Derived (R100–R103): under every accepted configuration, overlapping fields included, each mutator is the sequence
of primitives the source builds it from. -/
def Obligations.MutatorsAreBuiltFromPrimitives : Prop :=
  ∀ (c : Config) (s : State), configOk c = true → Memory.wf c s.cw = true →
    (∀ on : Bit, execOn c (.setPower on) s =
      execOn c (.replaceRange c.fPower.first c.fPower.last (if on then c.patOn else c.patOff)) s) ∧
    (∃ b s₁, execOn c (.equalsRange c.fTemp.first c.fTemp.last c.patTempMax) s = .next s₁ ∧
      s₁.resp = ⟨.ok, .bool b⟩ ∧
      if b then execOn c .incTemp s = .next { s with resp := ⟨.ok, .none⟩ }
      else ∃ t m s₂ s₃ s₄ s₅, execOn c (.readField c.fTemp.first c.fTemp.last) s₁ = .next s₂ ∧
        s₂.resp = ⟨.ok, .nat t⟩ ∧
        execOn c (.writeField c.fTemp.first c.fTemp.last (t + 1)) s₂ = .next s₃ ∧
        execOn c (.readField c.fMirror.first c.fMirror.last) s₃ = .next s₄ ∧ s₄.resp = ⟨.ok, .nat m⟩ ∧
        execOn c (.writeField c.fMirror.first c.fMirror.last (m - 1)) s₄ = .next s₅ ∧
        execOn c .incTemp s = .next s₅) ∧
    (∃ b s₁, execOn c (.equalsRange c.fTemp.first c.fTemp.last c.patTempMin) s = .next s₁ ∧
      s₁.resp = ⟨.ok, .bool b⟩ ∧
      if b then execOn c .decTemp s = .next { s with resp := ⟨.ok, .none⟩ }
      else ∃ t m s₂ s₃ s₄ s₅, execOn c (.readField c.fTemp.first c.fTemp.last) s₁ = .next s₂ ∧
        s₂.resp = ⟨.ok, .nat t⟩ ∧
        execOn c (.writeField c.fTemp.first c.fTemp.last (t - 1)) s₂ = .next s₃ ∧
        execOn c (.readField c.fMirror.first c.fMirror.last) s₃ = .next s₄ ∧ s₄.resp = ⟨.ok, .nat m⟩ ∧
        execOn c (.writeField c.fMirror.first c.fMirror.last (m + 1)) s₄ = .next s₅ ∧
        execOn c .decTemp s = .next s₅)

/-! ## The pulse encoder -/

/-- R127, R133: ENCODE answers the timeline of its bits and changes nothing else. `T_ONE` is the free value. A carrier
period of 0 is no configuration of the spec (R121, R174). -/
def Obligations.EncodeAnswersTheTimeline : Prop :=
  (∀ (c : Config) (bits : List Bit), 1 ≤ c.tHigh + c.tLow → pulseEncode c bits =
    List.replicate (c.tLead / (c.tHigh + c.tLow)) ⟨.high, c.tHigh, .low, c.tLow⟩ ++ [⟨.high, c.tLeadGap, .low, 0⟩] ++
    (bits.map fun b => List.replicate (c.tZero / (c.tHigh + c.tLow)) (PulseItem.mk .high c.tHigh .low c.tLow) ++
      [⟨.high, if b then c.oneGap else c.tZero, .low, 0⟩]).flatten ++
    (List.replicate (c.tZero / (c.tHigh + c.tLow)) ⟨.high, c.tHigh, .low, c.tLow⟩ ++ [⟨.high, 0, .high, 0⟩])) ∧
  ∀ (bits : List Bit) (s : State), exec (.encode bits) s =
    .next { s with resp := ⟨.ok, .timeline (pulseEncode Config.device bits)⟩ }

/-- R128: the timeline's length. -/
def Obligations.TimelineLengthIsClosedForm : Prop :=
  (∀ (c : Config) (bits : List Bit), 1 ≤ c.tHigh + c.tLow → (pulseEncode c bits).length =
    (c.tLead / (c.tHigh + c.tLow) + 1) + bits.length * (c.tZero / (c.tHigh + c.tLow) + 1) +
      (c.tZero / (c.tHigh + c.tLow) + 1)) ∧
  ∀ bits : List Bit, (pulseEncode Config.device bits).length = 347 + 22 * bits.length + 22

/-- Derived (R127), R129 being the spec's own inference: the item at every position. -/
def Obligations.TimelineItemAtEveryPosition : Prop :=
  ∀ (c : Config) (bits : List Bit) (n m : Nat), 1 ≤ c.tHigh + c.tLow → n = c.tLead / (c.tHigh + c.tLow) →
    m = c.tZero / (c.tHigh + c.tLow) →
    (∀ p < n, (pulseEncode c bits)[p]? = some (carrier c)) ∧
    (pulseEncode c bits)[n]? = some (leadTerm c) ∧
    (∀ i < bits.length, ∀ r < m, (pulseEncode c bits)[n + 1 + (i * (m + 1) + r)]? = some (carrier c)) ∧
    (∀ i < bits.length, (pulseEncode c bits)[n + 1 + (i * (m + 1) + m)]? = (bits[i]?).map (bitTerm c)) ∧
    (∀ r < m, (pulseEncode c bits)[n + 1 + (bits.length * (m + 1) + r)]? = some (carrier c)) ∧
    (pulseEncode c bits)[n + 1 + (bits.length * (m + 1) + m)]? = some endMark ∧
    ∀ p, n + 1 + (bits.length * (m + 1) + m) < p → (pulseEncode c bits)[p]? = none

/-- Derived (R18, R127), R130 being the spec's own inference: the durations of the segments and of the frame. -/
def Obligations.TimelineDurationsAddUp : Prop :=
  (∀ (c : Config) (bits : List Bit) (p n m : Nat), p = c.tHigh + c.tLow → 1 ≤ p → n = c.tLead / p → m = c.tZero / p →
    totalDuration (leadCode c) = n * p + c.tLeadGap ∧
    (∀ b : Bit, totalDuration (burst c b) = m * p + if b then c.oneGap else c.tZero) ∧
    totalDuration (endOfFrame c) = m * p ∧
    totalDuration (pulseEncode c bits) = n * p + c.tLeadGap + bits.length * m * p + bits.count true * c.oneGap +
      (bits.length - bits.count true) * c.tZero + m * p) ∧
  ∀ bits : List Bit, totalDuration (pulseEncode Config.device bits) =
    13496 + 546 * bits.length + 560 * (bits.length - bits.count true) + bits.count true * Config.tOneOpen + 546

/-- Derived (R127), R132 being the spec's own inference: the degenerate constants. -/
def Obligations.DegenerateConstantsShrinkTheFrame : Prop :=
  ∀ c : Config,
    (c.tLead < c.tHigh + c.tLow → leadCode c = [leadTerm c]) ∧
    (c.tZero < c.tHigh + c.tLow → (∀ b, burst c b = [bitTerm c b]) ∧ endOfFrame c = [endMark]) ∧
    (c.oneGap = c.tZero → bitTerm c true = bitTerm c false ∧
      ∀ bits bits' : List Bit, bits.length = bits'.length → pulseEncode c bits = pulseEncode c bits') ∧
    pulseEncode c [] = leadCode c ++ endOfFrame c

/-- Derived (R127–R129, R132): where the two gaps differ, a frame determines the bits it encodes. -/
def Obligations.FrameDeterminesItsBits : Prop :=
  ∀ (c : Config) (bits bits' : List Bit), c.oneGap ≠ c.tZero → pulseEncode c bits = pulseEncode c bits' → bits = bits'

/-- R134, R135: TRANSMIT puts the frame of the whole word, index 0 first, in OUT and sets BUSY; the word is unchanged;
an accepted command never overwrites a pending frame. -/
def Obligations.TransmitBuffersTheFrame : Prop :=
  (∀ s : State, Memory.wf Config.device s.cw = true →
    exec .transmit s = .next { s with
      out := some (pulseEncode Config.device s.cw), status := { s.status with busy := true }, resp := ⟨.ok, .none⟩ } ∧
    (pulseEncode Config.device s.cw).length = 1337 ∧
    ∀ j < 44, (pulseEncode Config.device s.cw)[368 + 22 * j]? =
      (s.cell j).map fun b => ⟨.high, if b then Config.tOneOpen else 560, .low, 0⟩) ∧
  ∀ (s s' : State) (t : List PulseItem), Inv Config.device s → step s = .next s' → s.out = some t →
    s'.out = some t ∨ s'.out = none

/-- Derived (R21, R22, R120): an instruction's effect on the block does not depend on what else is presented, on the
turns, or on what the driver has received, and leaves them alone. These three are the model's own
(notes/assumptions/3.md). -/
def Obligations.CommandsIgnoreTheEnvironment : Prop :=
  ∀ (i : Instr) (s : State) (port : List Command) (turns : List Turn) (delivered : List (List PulseItem)),
    ∃ t, exec i s = .next t ∧ t.port = s.port ∧ t.turns = s.turns ∧ t.delivered = s.delivered ∧
      exec i { s with port := port, turns := turns, delivered := delivered } =
        .next { t with port := port, turns := turns, delivered := delivered }

/-- Derived (R21, R120): ENCODE neither reads nor writes the command word, and answers by its bits alone. -/
def Obligations.EncodeIgnoresTheWord : Prop :=
  ∀ (bits : List Bit) (s : State) (cw : List Bit), ∃ t, exec (.encode bits) s = .next t ∧
    exec (.encode bits) { s with cw := cw } = .next { t with cw := cw } ∧
    ∀ s' t' : State, exec (.encode bits) s' = .next t' → t'.resp = t.resp

/-! ## Configuration -/

/-- Derived (R12, R174): the conditions a configuration must meet to have an initial state, with those R12 gives for the
interface parameters (notes/assumptions/13.md, 14.md); REF has one once `T_ONE` is given. -/
def Obligations.RefusedConfigurationsHaveNoState : Prop :=
  (∀ (c : Config) (s : State), initialState c = some s ↔
    s = State.resetOf c ∧ 1 ≤ c.tHigh + c.tLow ∧ c.baseline.length = c.wordLen ∧
    (∀ f ∈ [c.fPower, c.fTemp, c.fMirror], f.first ≤ f.last ∧ f.last < c.wordLen) ∧
    (c.patOn.length = c.fPower.width ∧ c.patOff.length = c.fPower.width) ∧
    (c.patTempMax.length = c.fTemp.width ∧ c.patTempMin.length = c.fTemp.width) ∧
    c.wordLen ≤ 63 ∧ (∃ t, c.tOne = some t) ∧
    (∀ w, c.durW = some w → ∀ d ∈ [c.tHigh, c.tLow, c.tLeadGap, c.tZero, c.oneGap], d < 2 ^ w) ∧
    c.maxEncodeBits ≤ 2 ^ 19 - 1) ∧
  initialState Config.ref = none ∧
  (∀ t : Nat, initialState { Config.ref with tOne := some t } =
    some (State.resetOf { Config.ref with tOne := some t })) ∧
  initialState Config.device = some State.reset
end

