-- ==== Sys2Proof/Laws/Assembler.lean ====
section
/-! SUPPORT. What the assembler's parts make of the texts the printer's parts write (R70). -/

namespace Sys2Proof

/-- A character that neither separates operands nor is trimmed. -/
def Plain (ch : Char) : Prop := ch ≠ ' ' ∧ ch ≠ ','

theorem trimText_of_ends {l : List Char} (h1 : l.head? ≠ some ' ') (h2 : l.getLast? ≠ some ' ') : trimText l = l := by
  have drop : ∀ m : List Char, m.head? ≠ some ' ' → m.dropWhile (· = ' ') = m := by
    intro m hm
    cases m with
    | nil => rfl
    | cons x m => simp only [List.head?_cons, ne_eq, Option.some.injEq] at hm; simp [hm]
  rw [trimText, drop l h1, drop _ (by rwa [List.head?_reverse]), List.reverse_reverse]

@[simp] theorem trimText_space (l : List Char) : trimText (' ' :: l) = trimText l := by simp [trimText]

theorem Plain.ends {l : List Char} (h : ∀ ch ∈ l, Plain ch) : l.head? ≠ some ' ' ∧ l.getLast? ≠ some ' ' :=
  ⟨fun hh => (h _ (List.mem_of_head? hh)).1 rfl, fun hh => (h _ (List.mem_of_getLast? hh)).1 rfl⟩

theorem splitCommas_ne_nil (z : List Char) : splitCommas z ≠ [] := by
  cases z with
  | nil => simp [splitCommas]
  | cons ch z =>
    simp only [splitCommas]
    split
    · simp
    · split <;> simp

theorem splitCommas_plain {x : List Char} (h : ∀ ch ∈ x, Plain ch) : splitCommas x = [x] := by
  induction x with
  | nil => rfl
  | cons ch x ih => simp [splitCommas, ih (fun d hd => h d (List.mem_cons_of_mem _ hd)), (h ch (by simp)).2]

theorem splitCommas_comma {x : List Char} (h : ∀ ch ∈ x, Plain ch) (z : List Char) :
    splitCommas (x ++ ',' :: z) = x :: splitCommas z := by
  induction x with
  | nil =>
    have := splitCommas_ne_nil z
    simp only [List.nil_append, splitCommas]
    split <;> simp_all
  | cons ch x ih =>
    have := ih (fun d hd => h d (List.mem_cons_of_mem _ hd))
    simp only [List.cons_append, splitCommas, this, (h ch (by simp)).2, if_false]

theorem splitCommas_space (z : List Char) :
    (splitCommas (' ' :: z)).map trimText = (splitCommas z).map trimText := by
  simp only [splitCommas]
  split
  · next h => exact absurd h (splitCommas_ne_nil z)
  · next p ps h => simp [h]

/-- Operands joined by commas are split into the operands again. -/
theorem splitCommas_joinOperands (ops : List (List Char)) (hne : ops ≠ []) (h : ∀ x ∈ ops, ∀ ch ∈ x, Plain ch) :
    (splitCommas (joinOperands ops)).map trimText = ops := by
  induction ops with
  | nil => exact absurd rfl hne
  | cons x l ih =>
    have hx := h x (by simp)
    have tx := trimText_of_ends (Plain.ends hx).1 (Plain.ends hx).2
    cases l with
    | nil => simp [joinOperands, splitCommas_plain hx, tx]
    | cons y l =>
      have := ih (by simp) (fun z hz => h z (List.mem_cons_of_mem _ hz))
      simp only [joinOperands, List.append_assoc, List.cons_append, List.nil_append]
      rw [splitCommas_comma hx, List.map_cons, splitCommas_space, this, tx]

theorem digitsFrom_append (b acc : Nat) (l r : List Char) :
    digitsFrom b acc (l ++ r) = (digitsFrom b acc l).bind fun a => digitsFrom b a r := by
  induction l generalizing acc with
  | nil => rfl
  | cons ch l ih =>
    simp only [List.cons_append, digitsFrom]
    split
    · exact ih _
    · rfl

theorem digitOf_digitChar : ∀ d < 10, digitOf 10 (Nat.digitChar d) = some d := by decide

theorem digitChar_plain : ∀ d < 10, Plain (Nat.digitChar d) ∧ Nat.digitChar d ≠ 'x' := by unfold Plain; decide

theorem digitsFrom_decimalText (n : Nat) : digitsFrom 10 0 (decimalText n) = some n := by
  induction n using Nat.strongRecOn with
  | _ n ih =>
    unfold decimalText at ih ⊢
    by_cases h : n < 10
    · rw [Nat.toDigits_of_lt_base h]; simp [digitsFrom, digitOf_digitChar n h]
    · rw [Nat.toDigits_of_base_le (by decide) (by omega), digitsFrom_append, ih (n / 10) (by omega)]
      simp only [Option.bind_some, digitsFrom, digitOf_digitChar (n % 10) (by omega)]
      rw [Nat.mul_comm, Nat.div_add_mod]

theorem decimalText_plain (n : Nat) : ∀ ch ∈ decimalText n, Plain ch ∧ ch ≠ 'x' := by
  induction n using Nat.strongRecOn with
  | _ n ih =>
    unfold decimalText at ih ⊢
    by_cases h : n < 10
    · rw [Nat.toDigits_of_lt_base h]
      intro ch hch
      rw [List.mem_singleton] at hch
      exact hch ▸ digitChar_plain n h
    · rw [Nat.toDigits_of_base_le (by decide) (by omega)]
      intro ch hch
      rw [List.mem_append, List.mem_singleton] at hch
      rcases hch with hch | rfl
      · exact ih _ (by omega) ch hch
      · exact digitChar_plain _ (by omega)

theorem decimalText_ne_nil (n : Nat) : decimalText n ≠ [] := Nat.toDigits_ne_nil

theorem bitsText_plain (l : List Bit) : ∀ ch ∈ bitsText l, Plain ch := by
  intro ch h
  simp only [bitsText, List.mem_cons, List.mem_append, List.mem_map, List.not_mem_nil, or_false] at h
  rcases h with (rfl | ⟨b, -, rfl⟩) | rfl
  · unfold Plain; decide
  · cases b <;> unfold Plain <;> decide
  · unfold Plain; decide

/-- A number's decimal text is read as the number. -/
theorem parseNumber_decimalText (n : Nat) : parseNumber (decimalText n) = some n := by
  have h := digitsFrom_decimalText n
  have hx := decimalText_plain n
  have hne := decimalText_ne_nil n
  revert h hx hne
  generalize decimalText n = l
  intro h hx hne
  unfold parseNumber
  split
  · exact absurd rfl hne
  · exact absurd rfl (hx 'x' (by simp)).2
  · exact h

/-- A quoted digit string is read as its bits. -/
theorem parseBits_bitsText (l : List Bit) : parseBits (bitsText l) = some l := by
  have : ∀ l : List Bit, parseDigits ((l.map fun b => if b then '1' else '0') ++ ['"']) = some l := by
    intro l
    induction l with
    | nil => rfl
    | cons b l ih => cases b <;> simp [parseDigits, ih]
  exact this l

end Sys2Proof
end

