-- ==== Sys2Proof/Laws/Bits.lean ====
section
/-! SUPPORT. The laws of `bitsVal` and `bitsBE`: each is the other's inverse, up to truncation. -/

namespace Sys2Proof

@[simp] theorem bitsVal_nil : bitsVal [] = 0 := rfl
@[simp] theorem bitsVal_cons (b : Bit) (l : List Bit) : bitsVal (b :: l) = b.toNat * 2 ^ l.length + bitsVal l := rfl
@[simp] theorem bitsBE_zero (v : Nat) : bitsBE v 0 = [] := rfl
theorem bitsBE_succ (v k : Nat) : bitsBE v (k + 1) = v.testBit k :: bitsBE v k := rfl

@[simp] theorem bitsBE_length (v k : Nat) : (bitsBE v k).length = k := by
  induction k with
  | zero => rfl
  | succ k ih => simp [bitsBE_succ, ih]

theorem bitsVal_lt (l : List Bit) : bitsVal l < 2 ^ l.length := by
  induction l with
  | nil => simp
  | cons b l ih =>
    have hb : b.toNat ≤ 1 := by cases b <;> simp
    have h : b.toNat * 2 ^ l.length ≤ 1 * 2 ^ l.length := Nat.mul_le_mul_right _ hb
    simp only [bitsVal_cons, List.length_cons, Nat.pow_succ]
    omega

theorem bitsVal_append (l r : List Bit) : bitsVal (l ++ r) = bitsVal l * 2 ^ r.length + bitsVal r := by
  induction l with
  | nil => simp
  | cons b l ih =>
    simp only [List.cons_append, bitsVal_cons, ih, List.length_append, Nat.pow_add, Nat.add_mul, Nat.mul_assoc]
    omega

/-- A value written in `k` bits and read back is the value modulo `2^k`. -/
@[simp] theorem bitsVal_bitsBE (v k : Nat) : bitsVal (bitsBE v k) = v % 2 ^ k := by
  induction k with
  | zero => simp [Nat.mod_one]
  | succ k ih =>
    simp only [bitsBE_succ, bitsVal_cons, bitsBE_length, ih]
    rw [Nat.mod_pow_succ, Nat.testBit_eq_decide_div_mod_eq]
    rcases Nat.mod_two_eq_zero_or_one (v / 2 ^ k) with h | h <;> simp [h, Nat.add_comm]

/-- The big-endian bits of a value depend on the value modulo `2^k` alone. -/
theorem bitsBE_mod (v k n : Nat) (h : k ≤ n) : bitsBE (v % 2 ^ n) k = bitsBE v k := by
  induction k with
  | zero => rfl
  | succ k ih =>
    have hk : k < n := h
    simp [bitsBE_succ, ih (by omega), Nat.testBit_mod_two_pow, hk]

theorem bitsVal_inj {l r : List Bit} (hl : l.length = r.length) (h : bitsVal l = bitsVal r) : l = r := by
  induction l generalizing r with
  | nil => cases r <;> simp_all
  | cons b l ih =>
    cases r with
    | nil => simp at hl
    | cons d r =>
      have hlen : l.length = r.length := by simpa using hl
      have h1 := bitsVal_lt l
      have h2 := bitsVal_lt r
      simp only [bitsVal_cons, hlen] at h
      rw [hlen] at h1
      have hbd : b = d := by
        cases b <;> cases d <;> simp at h ⊢ <;> omega
      subst hbd
      rw [ih hlen (by omega)]

/-- A bit list is the big-endian list of its value. -/
@[simp] theorem bitsBE_bitsVal (l : List Bit) : bitsBE (bitsVal l) l.length = l :=
  bitsVal_inj (by simp) (by simp [Nat.mod_eq_of_lt (bitsVal_lt l)])

/-- Bit `j` of a big-endian list has weight `2^(k-1-j)`. -/
theorem bitsBE_getElem? (v : Nat) {k j : Nat} (h : j < k) : (bitsBE v k)[j]? = some (v.testBit (k - 1 - j)) := by
  induction k generalizing j with
  | zero => omega
  | succ k ih =>
    cases j with
    | zero => simp [bitsBE_succ]
    | succ j =>
      have e : k - (j + 1) = k - 1 - j := by omega
      simp [bitsBE_succ, ih (Nat.lt_of_succ_lt_succ h), e]

/-- Element `j` of a list of `k` bits is bit `k-1-j` of its value. -/
theorem bitsVal_testBit (l : List Bit) {j : Nat} (h : j < l.length) :
    l[j]? = some ((bitsVal l).testBit (l.length - 1 - j)) := by
  have := bitsBE_getElem? (bitsVal l) h
  rwa [bitsBE_bitsVal] at this

end Sys2Proof
end

