-- ==== Sys2Proof/Laws/Decode.lean ====
section
/-! SUPPORT. What packing a header makes of its fields, and which row a header selects in terms of its fields. -/

namespace Sys2Proof

/-- The fields as arithmetic on the header's number. -/
theorem opField_eq (h : Header) : opField h = h.toNat % 16 := by
  simp [opField, BitVec.extractLsb'_toNat]
theorem onField_eq (h : Header) : onField h = h.toNat / 16 % 2 := by
  simp [onField, BitVec.extractLsb'_toNat, Nat.shiftRight_eq_div_pow]
theorem startField_eq (h : Header) : startField h = h.toNat / 32 % 64 := by
  simp [startField, BitVec.extractLsb'_toNat, Nat.shiftRight_eq_div_pow]
theorem endField_eq (h : Header) : endField h = h.toNat / 2048 % 64 := by
  simp [endField, BitVec.extractLsb'_toNat, Nat.shiftRight_eq_div_pow]
theorem lenField_eq (h : Header) : lenField h = h.toNat / 131072 % 128 := by
  simp [lenField, BitVec.extractLsb'_toNat, Nat.shiftRight_eq_div_pow]
theorem countField_eq (h : Header) : countField h = h.toNat / 32 % 524288 := by
  simp [countField, BitVec.extractLsb'_toNat, Nat.shiftRight_eq_div_pow]
theorem rsvField_eq (h : Header) : rsvField h = h.toNat / 16777216 % 256 := by
  simp [rsvField, BitVec.extractLsb'_toNat, Nat.shiftRight_eq_div_pow]

theorem packHeader_toNat (op on start stop len : Nat)
    (h : op + 2 ^ 4 * on + 2 ^ 5 * start + 2 ^ 11 * stop + 2 ^ 17 * len < 2 ^ 32) :
    (packHeader op on start stop len).toNat = op + 16 * on + 32 * start + 2048 * stop + 131072 * len := by
  simp only [packHeader, BitVec.toNat_ofNat, Nat.mod_eq_of_lt h]
  omega

/-- A header with these fields is the one packed from them: no bit lies outside the fields. -/
theorem packHeader_fields (h : Header) (hr : rsvField h = 0) :
    packHeader (opField h) (onField h) (startField h) (endField h) (lenField h) = h := by
  have hlt := h.isLt
  rw [rsvField_eq] at hr
  apply BitVec.eq_of_toNat_eq
  rw [packHeader_toNat, opField_eq, onField_eq, startField_eq, endField_eq, lenField_eq]
  · omega
  · rw [opField_eq, onField_eq, startField_eq, endField_eq, lenField_eq]; omega

/-- `COUNT` is `START`, `END` and `LEN` together. -/
theorem countField_fields (h : Header) : countField h = startField h + 64 * endField h + 4096 * lenField h := by
  rw [countField_eq, startField_eq, endField_eq, lenField_eq]; omega

/-- A mask that is the low bits below `lo` and the high bits from `hi` up selects a header by two equations on the
header's number. -/
theorem masked_eq_iff {lo hi p : Nat} {mask : Header} (hm : ∀ i < 32, mask.getLsbD i = (decide (i < lo) || decide (hi ≤ i)))
    (hlo : lo ≤ hi) (hhi : hi ≤ 32) (hp : p < 2 ^ lo) (h : Header) :
    h &&& mask = BitVec.ofNat 32 p ↔ h.toNat % 2 ^ lo = p ∧ h.toNat / 2 ^ hi = 0 := by
  have pHigh : ∀ i, lo ≤ i → p.testBit i = false := fun i hi' =>
    Nat.testBit_lt_two_pow (Nat.lt_of_lt_of_le hp (Nat.pow_le_pow_right (by decide) hi'))
  have hHigh : ∀ i, 32 ≤ i → h.toNat.testBit i = false := fun i hi' => BitVec.getLsbD_of_ge h i hi'
  constructor
  · intro he
    have bit : ∀ i < 32, (h.toNat.testBit i && (decide (i < lo) || decide (hi ≤ i))) = p.testBit i := by
      intro i hi'
      have := congrArg (fun x : Header => x.getLsbD i) he
      simp only [BitVec.getLsbD_and, hm i hi', BitVec.getLsbD_ofNat, hi', decide_true, Bool.true_and] at this
      exact this
    constructor
    · apply Nat.eq_of_testBit_eq
      intro i
      rw [Nat.testBit_mod_two_pow]
      by_cases hl : i < lo
      · simpa [hl] using bit i (by omega)
      · rw [pHigh i (by omega)]; simp [hl]
    · apply Nat.eq_of_testBit_eq
      intro i
      rw [Nat.testBit_div_two_pow, Nat.zero_testBit]
      by_cases h32 : i + hi < 32
      · have := bit (i + hi) h32
        rw [pHigh (i + hi) (by omega)] at this
        simpa using this
      · exact hHigh _ (by omega)
  · rintro ⟨h1, h2⟩
    apply BitVec.eq_of_getLsbD_eq
    intro i hi'
    rw [BitVec.getLsbD_and, hm i hi', BitVec.getLsbD_ofNat, ← BitVec.testBit_toNat]
    simp only [hi', decide_true, Bool.true_and]
    by_cases hl : i < lo
    · have := congrArg (fun n => n.testBit i) h1
      simpa [Nat.testBit_mod_two_pow, hl] using this
    · rw [pHigh i (by omega)]
      by_cases hh : hi ≤ i
      · have := congrArg (fun n => n.testBit (i - hi)) h2
        have e : i - hi + hi = i := by omega
        simp only [Nat.testBit_div_two_pow, e, Nat.zero_testBit] at this
        simp [this]
      · simp [hl, hh]

/-- The condition each row puts on a header's number (R62, R65, R67). -/
def rowCondition (h : Header) : Op → Prop
  | .readField => h.toNat % 32 = 1 ∧ h.toNat / 131072 = 0
  | .writeField => h.toNat % 32 = 2 ∧ h.toNat / 131072 = 0
  | .replaceRange => h.toNat % 32 = 3 ∧ h.toNat / 16777216 = 0
  | .equalsRange => h.toNat % 32 = 4 ∧ h.toNat / 16777216 = 0
  | .setPower => h.toNat % 16 = 5 ∧ h.toNat / 32 = 0
  | .incTemp => h.toNat = 6
  | .decTemp => h.toNat = 7
  | .encode => h.toNat % 32 = 8 ∧ h.toNat / 16777216 = 0
  | .transmit => h.toNat = 9

/-- The row of the opcode map for an operation. -/
def rowFor : Op → Row
  | .readField => ⟨.readField, .r, 0x00000001#32, 0xFFFE001F#32⟩
  | .writeField => ⟨.writeField, .rv, 0x00000002#32, 0xFFFE001F#32⟩
  | .replaceRange => ⟨.replaceRange, .rp, 0x00000003#32, 0xFF00001F#32⟩
  | .equalsRange => ⟨.equalsRange, .rp, 0x00000004#32, 0xFF00001F#32⟩
  | .setPower => ⟨.setPower, .p, 0x00000005#32, 0xFFFFFFEF#32⟩
  | .incTemp => ⟨.incTemp, .n, 0x00000006#32, 0xFFFFFFFF#32⟩
  | .decTemp => ⟨.decTemp, .n, 0x00000007#32, 0xFFFFFFFF#32⟩
  | .encode => ⟨.encode, .e, 0x00000008#32, 0xFF00001F#32⟩
  | .transmit => ⟨.transmit, .n, 0x00000009#32, 0xFFFFFFFF#32⟩

theorem opcodeRows_eq : opcodeRows = [.readField, .writeField, .replaceRange, .equalsRange, .setPower, .incTemp, .decTemp,
    .encode, .transmit].map rowFor := rfl

theorem allOnes_selects (h : Header) (p : Nat) (hp : p < 2 ^ 32) : h &&& 0xFFFFFFFF#32 = BitVec.ofNat 32 p ↔ h.toNat = p := by
  rw [masked_eq_iff (lo := 32) (hi := 32) (by decide) (by decide) (by decide) hp]
  have := h.isLt
  omega

/-- A header selects a row exactly when its number meets the row's condition. -/
theorem rowFor_selects_iff (op : Op) (h : Header) : (rowFor op).selects h = true ↔ rowCondition h op := by
  cases op <;> simp only [rowFor, Row.selects, beq_iff_eq, rowCondition]
  · exact masked_eq_iff (lo := 5) (hi := 17) (by decide) (by decide) (by decide) (by decide) h
  · exact masked_eq_iff (lo := 5) (hi := 17) (by decide) (by decide) (by decide) (by decide) h
  · exact masked_eq_iff (lo := 5) (hi := 24) (by decide) (by decide) (by decide) (by decide) h
  · exact masked_eq_iff (lo := 5) (hi := 24) (by decide) (by decide) (by decide) (by decide) h
  · exact masked_eq_iff (lo := 4) (hi := 5) (by decide) (by decide) (by decide) (by decide) h
  · exact allOnes_selects h 6 (by decide)
  · exact allOnes_selects h 7 (by decide)
  · exact masked_eq_iff (lo := 5) (hi := 24) (by decide) (by decide) (by decide) (by decide) h
  · exact allOnes_selects h 9 (by decide)

/-- Two rows' conditions exclude each other: the low four bits tell the rows apart. -/
theorem rowCondition_unique {h : Header} {op op' : Op} (h1 : rowCondition h op) (h2 : rowCondition h op') : op = op' := by
  cases op <;> cases op' <;> simp only [rowCondition] at h1 h2 <;> first | rfl | omega

/-- The row a header selects is the row whose condition it meets. -/
theorem rowOf_eq_some_iff (h : Header) (r : Row) : rowOf h = some r ↔ ∃ op, r = rowFor op ∧ rowCondition h op := by
  constructor
  · intro hr
    have hsel := List.find?_some hr
    have hmem := List.mem_of_find?_eq_some hr
    rw [opcodeRows_eq, List.mem_map] at hmem
    obtain ⟨op, -, rfl⟩ := hmem
    exact ⟨op, rfl, (rowFor_selects_iff op h).1 hsel⟩
  · rintro ⟨op, rfl, hc⟩
    have hsome : (rowOf h).isSome := by
      rw [rowOf, List.find?_isSome]
      exact ⟨rowFor op, by rw [opcodeRows_eq]; cases op <;> simp, (rowFor_selects_iff op h).2 hc⟩
    obtain ⟨r', hr'⟩ := Option.isSome_iff_exists.1 hsome
    have hsel := List.find?_some hr'
    have hmem := List.mem_of_find?_eq_some hr'
    rw [opcodeRows_eq, List.mem_map] at hmem
    obtain ⟨op', -, rfl⟩ := hmem
    rw [hr', rowCondition_unique ((rowFor_selects_iff op' h).1 hsel) hc]

/-- A header selects no row exactly when it meets no row's condition. -/
theorem rowOf_eq_none_iff (h : Header) : rowOf h = none ↔ ∀ op, ¬ rowCondition h op := by
  constructor
  · intro hn op hc
    have := (rowOf_eq_some_iff h (rowFor op)).2 ⟨op, rfl, hc⟩
    simp [hn] at this
  · intro hall
    cases hr : rowOf h with
    | none => rfl
    | some r =>
      obtain ⟨op, -, hc⟩ := (rowOf_eq_some_iff h r).1 hr
      exact absurd hc (hall op)

/-- When decoding succeeds: the row, the operand's length and the operands (R66). -/
theorem decodeOn_eq_ok_iff (c : Config) (cmd : Command) (i : Instr) :
    decodeOn c cmd = .ok i ↔ ∃ op, rowCondition cmd.header op ∧
      cmd.data.len = operandLen (rowFor op).format cmd.header ∧ cmd.data.wellFormed = true ∧
      (op = .encode → cmd.data.len ≤ c.maxEncodeBits) ∧ i = assemble op cmd := by
  unfold decodeOn
  cases hr : rowOf cmd.header with
  | none =>
    have := (rowOf_eq_none_iff _).1 hr
    constructor
    · intro h; cases h
    · rintro ⟨op, hc, -⟩; exact absurd hc (this op)
  | some r =>
    obtain ⟨op, rfl, hc⟩ := (rowOf_eq_some_iff _ _).1 hr
    have hop : (rowFor op).op = op := by cases op <;> rfl
    simp only [hop]
    constructor
    · intro h
      split at h
      · cases h
      · next h1 =>
        split at h
        · cases h
        · next h2 =>
          injection h with h
          refine ⟨op, hc, ?_, ?_, ?_, h.symm⟩
          · omega
          · simp only [not_or, Bool.not_eq_false] at h1; exact h1.2
          · intro he; simp only [he, true_and, Nat.not_lt] at h2; exact h2
    · rintro ⟨op', hc', hlen, hwf, hmax, rfl⟩
      have := rowCondition_unique hc hc'
      subst this
      rw [if_neg (by simp [hlen, hwf]), if_neg (by rintro ⟨he, hl⟩; have := hmax he; omega)]

end Sys2Proof
end

