-- ==== Sys2Proof/Laws/Memory.lean ====
section
/-! SUPPORT. The laws of `memRead` and `memWrite`: a read after a write to the same place gives the value written, a
write leaves every other cell alone, and every operation keeps the word's form. -/

namespace Sys2Proof.Machine

@[simp] theorem memWrite_nil (cw : List Bit) (a : Nat) : memWrite cw a [] = cw := by
  cases cw <;> simp [memWrite]

@[simp] theorem memWrite_length (cw : List Bit) (a : Nat) (l : List Bit) : (memWrite cw a l).length = cw.length := by
  induction cw generalizing a l with
  | nil => cases l <;> simp [memWrite]
  | cons c cw ih =>
    cases l with
    | nil => simp
    | cons b l => cases a <;> simp [memWrite, ih]

/-- A write keeps the form of the address space. -/
@[simp] theorem memWrite_wf (c : Config) (cw : List Bit) (a : Nat) (l : List Bit) :
    Memory.wf c (memWrite cw a l) = Memory.wf c cw := by simp [Memory.wf]

theorem Memory.wf_iff (c : Config) (cw : List Bit) : Memory.wf c cw = true ↔ cw.length = c.wordLen := by
  simp [Memory.wf]

/-- What a cell holds after a write, inside the range written and outside it. -/
theorem memWrite_getElem? (cw : List Bit) (a : Nat) (l : List Bit) (i : Nat) :
    (memWrite cw a l)[i]? = if a ≤ i ∧ i < a + l.length ∧ i < cw.length then l[i - a]? else cw[i]? := by
  induction cw generalizing a l i with
  | nil => cases l <;> simp [memWrite]
  | cons c cw ih =>
    cases l with
    | nil => simp; omega
    | cons b l =>
      cases a with
      | zero =>
        cases i with
        | zero => simp [memWrite]
        | succ i => simp [memWrite, ih]
      | succ a =>
        cases i with
        | zero => simp [memWrite]
        | succ i =>
          have e : a + 1 + (b :: l).length = a + (b :: l).length + 1 := by omega
          simp only [memWrite, List.getElem?_cons_succ, ih, Nat.add_sub_add_right, List.length_cons,
            Nat.add_le_add_iff_right, Nat.add_lt_add_iff_right]
          congr 1
          exact propext ⟨fun h => by omega, fun h => by omega⟩

/-- A write leaves every cell outside the range written. -/
theorem memWrite_outside (cw : List Bit) (a : Nat) (l : List Bit) (i : Nat) (h : i < a ∨ a + l.length ≤ i) :
    (memWrite cw a l)[i]? = cw[i]? := by
  rw [memWrite_getElem?, if_neg (by omega)]

/-- A write puts `l[j]` in cell `a + j`. -/
theorem memWrite_inside (cw : List Bit) (a : Nat) (l : List Bit) (j : Nat) (h : j < l.length) (hc : a + j < cw.length) :
    (memWrite cw a l)[a + j]? = l[j]? := by
  rw [memWrite_getElem?, if_pos (by omega), Nat.add_sub_cancel_left]

theorem memRead_length (cw : List Bit) (a n : Nat) (h : a + n ≤ cw.length) : (memRead cw a n).length = n := by
  simp [memRead]; omega

theorem memRead_getElem? (cw : List Bit) (a n j : Nat) : (memRead cw a n)[j]? = if j < n then cw[a + j]? else none := by
  simp only [memRead, List.getElem?_take, List.getElem?_drop]

/-- The whole word read is the word. -/
@[simp] theorem memRead_all (cw : List Bit) : memRead cw 0 cw.length = cw := by simp [memRead]

theorem memRead_wf {c : Config} {cw : List Bit} (h : Memory.wf c cw = true) : memRead cw 0 c.wordLen = cw := by
  rw [← (Memory.wf_iff c cw).1 h, memRead_all]

/-- A read of the range just written gives the bits written. -/
theorem memRead_memWrite_same (cw : List Bit) (a : Nat) (l : List Bit) (h : a + l.length ≤ cw.length) :
    memRead (memWrite cw a l) a l.length = l := by
  apply List.ext_getElem?
  intro j
  rw [memRead_getElem?]
  split
  · next hj => exact memWrite_inside cw a l j hj (by omega)
  · next hj => simp [List.getElem?_eq_none (Nat.le_of_not_lt hj)]

/-- A read of a range disjoint from the one written is the read before. -/
theorem memRead_memWrite_disjoint (cw : List Bit) (a : Nat) (l : List Bit) (b n : Nat)
    (h : b + n ≤ a ∨ a + l.length ≤ b) : memRead (memWrite cw a l) b n = memRead cw b n := by
  apply List.ext_getElem?
  intro j
  simp only [memRead_getElem?]
  split
  · next hj => exact memWrite_outside cw a l (b + j) (by omega)
  · rfl

/-- Adjacent reads join. -/
theorem memRead_append (cw : List Bit) (a m n : Nat) :
    memRead cw a (m + n) = memRead cw a m ++ memRead cw (a + m) n := by
  simp only [memRead, List.take_add, List.drop_drop]

/-- Writing back what a range holds changes nothing. -/
theorem memWrite_memRead (cw : List Bit) (a n : Nat) : memWrite cw a (memRead cw a n) = cw := by
  apply List.ext_getElem?
  intro i
  rw [memWrite_getElem?]
  split
  · next h =>
    have hn : i - a < n := by
      have := h.2.1
      simp only [memRead, List.length_take] at this
      omega
    have e : a + (i - a) = i := by omega
    rw [memRead_getElem?, if_pos hn, e]
  · rfl

/-- Writing the same range twice leaves what writing it once leaves. -/
theorem memWrite_memWrite_same (cw : List Bit) (a : Nat) (l : List Bit) :
    memWrite (memWrite cw a l) a l = memWrite cw a l := by
  apply List.ext_getElem?
  intro i
  rw [memWrite_getElem?, memWrite_getElem?]
  split <;> simp_all

/-- `n` cells hold a value below `2^n`. -/
theorem bitsVal_memRead_lt (cw : List Bit) (a n : Nat) : bitsVal (memRead cw a n) < 2 ^ n :=
  Nat.lt_of_lt_of_le (bitsVal_lt _) (Nat.pow_le_pow_right (by decide) (by simp [memRead]))

/-- A number written in `k` cells is read back modulo `2^k`. -/
theorem bitsVal_memRead_memWrite (cw : List Bit) (a k v : Nat) (h : a + k ≤ cw.length) :
    bitsVal (memRead (memWrite cw a (bitsBE v k)) a k) = v % 2 ^ k := by
  have := memRead_memWrite_same cw a (bitsBE v k) (by simpa using h)
  rw [bitsBE_length] at this
  rw [this, bitsVal_bitsBE]

theorem fieldVal_lt (f : Field) (s : State) : fieldVal f s < 2 ^ f.width :=
  Nat.lt_of_lt_of_le (bitsVal_lt _) (Nat.pow_le_pow_right (by decide) (by simp [fieldBits, memRead]))

end Sys2Proof.Machine
end

