-- ==== Sys2Proof/Laws/Encoder.lean ====
section
/-! SUPPORT. The lengths, items and durations of the encoder's segments. -/

namespace Sys2Proof.Machine

/-- With a carrier period, the count is the truncated quotient. -/
theorem subPulses_eq_div {c : Config} (d : Nat) (h : 1 ≤ c.tHigh + c.tLow) :
    subPulses c d = d / (c.tHigh + c.tLow) :=
  if_neg (Nat.ne_of_gt h)

theorem nLead_eq_div {c : Config} (h : 1 ≤ c.tHigh + c.tLow) : nLead c = c.tLead / (c.tHigh + c.tLow) :=
  subPulses_eq_div _ h

theorem mBit_eq_div {c : Config} (h : 1 ≤ c.tHigh + c.tLow) : mBit c = c.tZero / (c.tHigh + c.tLow) :=
  subPulses_eq_div _ h

@[simp] theorem leadCode_length (c : Config) : (leadCode c).length = nLead c + 1 := by simp [leadCode]
@[simp] theorem burst_length (c : Config) (b : Bit) : (burst c b).length = mBit c + 1 := by simp [burst]
@[simp] theorem endOfFrame_length (c : Config) : (endOfFrame c).length = mBit c + 1 := by simp [endOfFrame]

/-- The bursts of `N` bits take `N * (m + 1)` items, whatever the bits are. -/
@[simp] theorem bursts_length (c : Config) (bits : List Bit) :
    (bits.flatMap (burst c)).length = bits.length * (mBit c + 1) := by
  induction bits with
  | nil => simp
  | cons b bits ih => simp [ih, Nat.add_mul]; omega

/-- Item `r` of a run of `k` carriers and a last item. -/
theorem carriers_getElem? (x y : PulseItem) (k r : Nat) (h : r ≤ k) :
    (List.replicate k x ++ [y])[r]? = some (if r < k then x else y) := by
  rw [List.getElem?_append]
  split <;> simp_all

/-- Item `i * (m + 1) + r` of the bursts is item `r` of the burst of bit `i`. -/
theorem bursts_getElem? (c : Config) (bits : List Bit) (i r : Nat) (hr : r < mBit c + 1) :
    (bits.flatMap (burst c))[i * (mBit c + 1) + r]? = (bits[i]?).bind fun b => (burst c b)[r]? := by
  induction bits generalizing i with
  | nil => simp
  | cons b bits ih =>
    rw [List.flatMap_cons, List.getElem?_append]
    cases i with
    | zero => simp [hr]
    | succ i =>
      have e : (i + 1) * (mBit c + 1) = i * (mBit c + 1) + (mBit c + 1) := by rw [Nat.add_mul, Nat.one_mul]
      rw [if_neg (by simp only [burst_length]; omega), burst_length]
      have e2 : (i + 1) * (mBit c + 1) + r - (mBit c + 1) = i * (mBit c + 1) + r := by omega
      rw [e2, ih, List.getElem?_cons_succ]

theorem totalDuration_append (t u : List PulseItem) : totalDuration (t ++ u) = totalDuration t + totalDuration u := by
  simp [totalDuration]

theorem totalDuration_replicate (k : Nat) (p : PulseItem) : totalDuration (List.replicate k p) = k * p.duration := by
  simp [totalDuration]

/-- A burst lasts its carriers and its gap. -/
theorem burst_duration (c : Config) (b : Bit) :
    totalDuration (burst c b) = mBit c * carrierPeriod c + gapOf c b := by
  simp [burst, totalDuration, carrier, PulseItem.duration, carrierPeriod, bitTerm]

theorem carrierPeriod_device : carrierPeriod Config.device = 26 := rfl
theorem nLead_device : nLead Config.device = 346 := rfl
theorem mBit_device : mBit Config.device = 21 := rfl

end Sys2Proof.Machine
end

