-- ==== Sys2Proof/Laws/State.lean ====
section
/-! SUPPORT. What each named operation leaves in each field of the state: one lemma a field, all true by unfolding. -/

namespace Sys2Proof.Machine

section
variable (s : State)

@[simp] theorem respond_cw (code : RespCode) (data : RespData) : (respond code data s).cw = s.cw := rfl
@[simp] theorem respond_status (code : RespCode) (data : RespData) : (respond code data s).status = s.status := rfl
@[simp] theorem respond_resp (code : RespCode) (data : RespData) : (respond code data s).resp = ⟨code, data⟩ := rfl
@[simp] theorem respond_out (code : RespCode) (data : RespData) : (respond code data s).out = s.out := rfl
@[simp] theorem respond_port (code : RespCode) (data : RespData) : (respond code data s).port = s.port := rfl
@[simp] theorem respond_turns (code : RespCode) (data : RespData) : (respond code data s).turns = s.turns := rfl
@[simp] theorem respond_delivered (code : RespCode) (data : RespData) : (respond code data s).delivered = s.delivered := rfl

@[simp] theorem takeFault_cw (cause : FaultCause) : (takeFault cause s).cw = s.cw := rfl
@[simp] theorem takeFault_status (cause : FaultCause) : (takeFault cause s).status = ⟨s.status.busy, true, cause⟩ := rfl
@[simp] theorem takeFault_resp (cause : FaultCause) : (takeFault cause s).resp = s.resp := rfl
@[simp] theorem takeFault_out (cause : FaultCause) : (takeFault cause s).out = s.out := rfl
@[simp] theorem takeFault_port (cause : FaultCause) : (takeFault cause s).port = s.port := rfl
@[simp] theorem takeFault_turns (cause : FaultCause) : (takeFault cause s).turns = s.turns := rfl
@[simp] theorem takeFault_delivered (cause : FaultCause) : (takeFault cause s).delivered = s.delivered := rfl

@[simp] theorem writeBits_cw (a : Nat) (l : List Bit) : (writeBits a l s).cw = memWrite s.cw a l := rfl
@[simp] theorem writeBits_status (a : Nat) (l : List Bit) : (writeBits a l s).status = s.status := rfl
@[simp] theorem writeBits_resp (a : Nat) (l : List Bit) : (writeBits a l s).resp = s.resp := rfl
@[simp] theorem writeBits_out (a : Nat) (l : List Bit) : (writeBits a l s).out = s.out := rfl
@[simp] theorem writeBits_port (a : Nat) (l : List Bit) : (writeBits a l s).port = s.port := rfl
@[simp] theorem writeBits_turns (a : Nat) (l : List Bit) : (writeBits a l s).turns = s.turns := rfl
@[simp] theorem writeBits_delivered (a : Nat) (l : List Bit) : (writeBits a l s).delivered = s.delivered := rfl

@[simp] theorem setField_cw (f : Field) (v : Nat) : (setField f v s).cw = memWrite s.cw f.first (bitsBE v f.width) := rfl
@[simp] theorem setField_status (f : Field) (v : Nat) : (setField f v s).status = s.status := rfl
@[simp] theorem setField_resp (f : Field) (v : Nat) : (setField f v s).resp = s.resp := rfl
@[simp] theorem setField_out (f : Field) (v : Nat) : (setField f v s).out = s.out := rfl
@[simp] theorem setField_port (f : Field) (v : Nat) : (setField f v s).port = s.port := rfl
@[simp] theorem setField_turns (f : Field) (v : Nat) : (setField f v s).turns = s.turns := rfl
@[simp] theorem setField_delivered (f : Field) (v : Nat) : (setField f v s).delivered = s.delivered := rfl

@[simp] theorem resetBlock_cw (c : Config) : (resetBlock c s).cw = c.baseline := rfl
@[simp] theorem resetBlock_status (c : Config) : (resetBlock c s).status = ⟨false, false, .none⟩ := rfl
@[simp] theorem resetBlock_resp (c : Config) : (resetBlock c s).resp = ⟨.ok, .none⟩ := rfl
@[simp] theorem resetBlock_out (c : Config) : (resetBlock c s).out = none := rfl
@[simp] theorem resetBlock_port (c : Config) : (resetBlock c s).port = s.port := rfl
@[simp] theorem resetBlock_turns (c : Config) : (resetBlock c s).turns = s.turns := rfl
@[simp] theorem resetBlock_delivered (c : Config) : (resetBlock c s).delivered = s.delivered := rfl

@[simp] theorem putFrame_cw (t : List PulseItem) : (putFrame t s).cw = s.cw := rfl
@[simp] theorem putFrame_status (t : List PulseItem) : (putFrame t s).status = ⟨true, s.status.faulted, s.status.fcause⟩ := rfl
@[simp] theorem putFrame_resp (t : List PulseItem) : (putFrame t s).resp = s.resp := rfl
@[simp] theorem putFrame_out (t : List PulseItem) : (putFrame t s).out = some t := rfl
@[simp] theorem putFrame_port (t : List PulseItem) : (putFrame t s).port = s.port := rfl
@[simp] theorem putFrame_turns (t : List PulseItem) : (putFrame t s).turns = s.turns := rfl
@[simp] theorem putFrame_delivered (t : List PulseItem) : (putFrame t s).delivered = s.delivered := rfl

@[simp] theorem deliverFrame_cw (t : List PulseItem) : (deliverFrame t s).cw = s.cw := rfl
@[simp] theorem deliverFrame_status (t : List PulseItem) : (deliverFrame t s).status = ⟨false, s.status.faulted, s.status.fcause⟩ := rfl
@[simp] theorem deliverFrame_resp (t : List PulseItem) : (deliverFrame t s).resp = s.resp := rfl
@[simp] theorem deliverFrame_out (t : List PulseItem) : (deliverFrame t s).out = none := rfl
@[simp] theorem deliverFrame_port (t : List PulseItem) : (deliverFrame t s).port = s.port := rfl
@[simp] theorem deliverFrame_turns (t : List PulseItem) : (deliverFrame t s).turns = s.turns := rfl
@[simp] theorem deliverFrame_delivered (t : List PulseItem) : (deliverFrame t s).delivered = s.delivered ++ [t] := rfl

end

@[simp] theorem resetOf_cw (c : Config) : (State.resetOf c).cw = c.baseline := rfl
@[simp] theorem resetOf_status (c : Config) : (State.resetOf c).status = ⟨false, false, .none⟩ := rfl
@[simp] theorem resetOf_resp (c : Config) : (State.resetOf c).resp = ⟨.ok, .none⟩ := rfl
@[simp] theorem resetOf_out (c : Config) : (State.resetOf c).out = none := rfl
@[simp] theorem resetOf_port (c : Config) : (State.resetOf c).port = [] := rfl
@[simp] theorem resetOf_turns (c : Config) : (State.resetOf c).turns = [] := rfl
@[simp] theorem resetOf_delivered (c : Config) : (State.resetOf c).delivered = [] := rfl

/-- The port is open exactly when the block is neither faulted nor busy. -/
theorem portOpen_iff (s : State) : portOpen s = true ↔ s.status.faulted = false ∧ s.status.busy = false := by
  simp [portOpen]

end Sys2Proof.Machine
end

