-- ==== Sys2Proof/Laws/Instr.lean ====
section
/-! SUPPORT. What each primitive's checks decide, what the fields' updates leave, and the fields of the device's
configuration. -/

namespace Sys2Proof.Machine

@[simp] theorem device_wordLen : Config.device.wordLen = 44 := rfl
@[simp] theorem device_fPower : Config.device.fPower = ⟨4, 7⟩ := rfl
@[simp] theorem device_fTemp : Config.device.fTemp = ⟨12, 15⟩ := rfl
@[simp] theorem device_fMirror : Config.device.fMirror = ⟨40, 43⟩ := rfl
@[simp] theorem device_patTempMax : Config.device.patTempMax = [true, false, true, true] := rfl
@[simp] theorem device_patTempMin : Config.device.patTempMin = [false, false, false, false] := rfl
theorem device_baseline_length : Config.device.baseline.length = Config.device.wordLen := rfl
theorem device_oneGap : Config.device.oneGap = Config.tOneOpen := rfl

/-- The device's word has 44 cells. -/
theorem device_wf_iff (cw : List Bit) : Memory.wf Config.device cw = true ↔ cw.length = 44 := Memory.wf_iff ..

theorem fieldOutOfRange_eq_false_iff (c : Config) (first last : Nat) :
    fieldOutOfRange c first last = false ↔ first ≤ last ∧ last < c.wordLen := by
  simp [fieldOutOfRange]

theorem fieldOutOfRange_eq_true_iff (c : Config) (first last : Nat) :
    fieldOutOfRange c first last = true ↔ last < first ∨ c.wordLen ≤ last := by
  simp [fieldOutOfRange]

theorem replaceInvalid_eq_true_iff (c : Config) (first last : Nat) (p : List Bit) :
    replaceInvalid c first last p = true ↔ c.wordLen ≤ last ∨ (p.length : Int) ≠ (last : Int) - first + 1 := by
  simp [replaceInvalid, rangeWidth]

theorem replaceInvalid_eq_false_iff (c : Config) (first last : Nat) (p : List Bit) :
    replaceInvalid c first last p = false ↔ last < c.wordLen ∧ (p.length : Int) = (last : Int) - first + 1 := by
  simp [replaceInvalid, rangeWidth]

theorem equalsRangeOn_mismatch (c : Config) (s : State) {first last : Nat} {p : List Bit}
    (h : (p.length : Int) ≠ (last : Int) - first + 1) :
    equalsRangeOn c first last p s = .next (respond .ok (.bool false) s) := if_pos h

theorem equalsRangeOn_beyond (c : Config) (s : State) {first last : Nat} {p : List Bit}
    (h : (p.length : Int) = (last : Int) - first + 1) (hl : c.wordLen ≤ last) :
    equalsRangeOn c first last p s = .next (takeFault .rangeError s) :=
  (if_neg (not_not.2 h)).trans (if_pos hl)

theorem equalsRangeOn_compare (c : Config) (s : State) {first last : Nat} {p : List Bit}
    (h : (p.length : Int) = (last : Int) - first + 1) (hl : last < c.wordLen) :
    equalsRangeOn c first last p s = .next (respond .ok (.bool (memRead s.cw first p.length == p)) s) :=
  (if_neg (not_not.2 h)).trans (if_neg (Nat.not_le.2 hl))

/-- A number put into a field is read back modulo `2^k`. -/
theorem fieldVal_setField (f : Field) (v : Nat) (s : State) (h : f.first ≤ f.last) (hl : f.last < s.cw.length) :
    fieldVal f (setField f v s) = v % 2 ^ f.width :=
  bitsVal_memRead_memWrite _ _ _ _ (by simp only [Field.width]; omega)

/-- A field that shares no cell with the one written keeps its value. -/
theorem fieldVal_setField_other (f g : Field) (v : Nat) (s : State) (hf : f.first ≤ f.last) (hg : g.first ≤ g.last)
    (h : f.last < g.first ∨ g.last < f.first) : fieldVal g (setField f v s) = fieldVal g s := by
  simp only [fieldVal, fieldBits, setField_cw]
  rw [memRead_memWrite_disjoint]
  simp only [bitsBE_length, Field.width]
  omega

end Sys2Proof.Machine
end

