-- ==== Sys2Proof/Laws/PerInstr.lean ====
section
/-! SUPPORT. Laws stated per instruction (LAWS.json): the header the encoder packs for a well-formed instruction selects
the instruction's own row of the opcode map, and its data operand has the length that row names (R62, R65). -/

namespace Sys2Proof.Laws.SelectsItsRow

/-- The encoded command selects the instruction's row, and the operand is a word of the length the row names. -/
def Statement (i : Instr) : Prop :=
  i.wellFormed Config.device = true →
    rowOf (encode i).header = some (rowFor i.op) ∧
      (encode i).data.len = operandLen (rowFor i.op).format (encode i).header ∧ (encode i).data.wellFormed = true

/-- From the header's number to the statement. -/
theorem of_condition {i : Instr} (hc : rowCondition (encode i).header i.op)
    (hl : (encode i).data.len = operandLen (rowFor i.op).format (encode i).header)
    (hw : (encode i).data.wellFormed = true) :
    rowOf (encode i).header = some (rowFor i.op) ∧
      (encode i).data.len = operandLen (rowFor i.op).format (encode i).header ∧ (encode i).data.wellFormed = true :=
  ⟨(rowOf_eq_some_iff _ _).2 ⟨i.op, rfl, hc⟩, hl, hw⟩

theorem ofBits_wellFormed (l : List Bit) : (DataWord.ofBits l).wellFormed = true := by
  simp [DataWord.wellFormed, DataWord.ofBits, bitsVal_lt]

theorem readField (first last : Nat) : Statement (.readField first last) := by
  intro h
  simp only [Instr.wellFormed, indexFits, Bool.and_eq_true, decide_eq_true_eq] at h
  refine of_condition ?_ rfl rfl
  simp only [rowCondition, encode, Instr.op]
  rw [packHeader_toNat _ _ _ _ _ (by omega)]
  omega

theorem writeField (first last value : Nat) : Statement (.writeField first last value) := by
  intro h
  simp only [Instr.wellFormed, indexFits, valueFits, Bool.and_eq_true, decide_eq_true_eq] at h
  refine of_condition ?_ rfl (decide_eq_true h.2)
  simp only [rowCondition, encode, Instr.op]
  rw [packHeader_toNat _ _ _ _ _ (by omega)]
  omega

theorem replaceRange (first last : Nat) (pattern : List Bit) : Statement (.replaceRange first last pattern) := by
  intro h
  simp only [Instr.wellFormed, indexFits, patternFits, Bool.and_eq_true, decide_eq_true_eq] at h
  have hn := packHeader_toNat 3 0 first last pattern.length (by omega)
  refine of_condition ?_ ?_ (ofBits_wellFormed pattern)
  · simp only [rowCondition, encode, Instr.op]
    omega
  · simp only [encode, Instr.op, rowFor, operandLen, DataWord.ofBits, lenField_eq]
    omega

theorem equalsRange (first last : Nat) (pattern : List Bit) : Statement (.equalsRange first last pattern) := by
  intro h
  simp only [Instr.wellFormed, indexFits, patternFits, Bool.and_eq_true, decide_eq_true_eq] at h
  have hn := packHeader_toNat 4 0 first last pattern.length (by omega)
  refine of_condition ?_ ?_ (ofBits_wellFormed pattern)
  · simp only [rowCondition, encode, Instr.op]
    omega
  · simp only [encode, Instr.op, rowFor, operandLen, DataWord.ofBits, lenField_eq]
    omega

theorem setPower (on : Bit) : Statement (.setPower on) := by
  intro _
  refine of_condition ?_ rfl rfl
  simp only [rowCondition, encode, Instr.op]
  cases on <;> decide

theorem incTemp : Statement .incTemp := fun _ => of_condition (by simp [rowCondition, encode, Instr.op, packHeader]) rfl rfl

theorem decTemp : Statement .decTemp := fun _ => of_condition (by simp [rowCondition, encode, Instr.op, packHeader]) rfl rfl

theorem encode (bits : List Bit) : Statement (.encode bits) := by
  intro h
  simp only [Instr.wellFormed, bitsFit, Bool.and_eq_true, decide_eq_true_eq] at h
  have hn := packHeader_toNat 8 0 bits.length 0 0 (by omega)
  refine of_condition ?_ ?_ (ofBits_wellFormed bits)
  · simp only [rowCondition, Sys2Proof.encode, Instr.op]
    omega
  · simp only [Sys2Proof.encode, Instr.op, rowFor, operandLen, DataWord.ofBits, countField_eq]
    omega

theorem transmit : Statement .transmit := fun _ => of_condition (by simp [rowCondition, Sys2Proof.encode, Instr.op, packHeader]) rfl rfl

end Sys2Proof.Laws.SelectsItsRow
end

