-- ==== Sys2Proof/Laws/Step.lean ====
section
/-! SUPPORT. Everything an instruction, a turn and a step can do, said once: the claims over all instructions and all
steps are derived from `execOn_effect` and `runTurn_effect`. -/

namespace Sys2Proof.Machine

/-- The device's meanings are the configured machine's at `Config.device`. -/
theorem exec_eq_execOn (i : Instr) (s : State) : exec i s = execOn Config.device i s := by cases i <;> rfl

/-- The device's step is the configured machine's at `Config.device`. -/
theorem step_eq_stepOn (s : State) : step s = stepOn Config.device s := by
  have : exec = execOn Config.device := funext fun i => funext fun t => exec_eq_execOn i t
  unfold step stepOn
  rw [this]

/-- The commands that write the command word (R21). -/
def writesWord : Op → Bool
  | .writeField => true
  | .replaceRange => true
  | .setPower => true
  | .incTemp => true
  | .decTemp => true
  | .readField => false
  | .equalsRange => false
  | .encode => false
  | .transmit => false

/-- The commands that can raise RangeError (R150). -/
def mayRangeError : Op → Bool
  | .readField => true
  | .writeField => true
  | .equalsRange => true
  | .replaceRange => false
  | .setPower => false
  | .incTemp => false
  | .decTemp => false
  | .encode => false
  | .transmit => false

/-- Everything an accepted instruction can make of a state. -/
inductive Effect (c : Config) (i : Instr) (s : State) : State → Prop where
  /-- It takes a RangeError. -/
  | rangeError : mayRangeError i.op = true → Effect c i s (takeFault .rangeError s)
  /-- It only answers. -/
  | answer (data : RespData) : (∀ v, data = .nat v → v < 2 ^ c.wordLen) → writesWord i.op = false → i.op ≠ .transmit →
      Effect c i s (respond .ok data s)
  /-- A failed REPLACE_RANGE only answers so. -/
  | invalid : i.op = .replaceRange → Effect c i s (respond .validationError .none s)
  /-- It writes the command word, whose length stays. -/
  | write (cw : List Bit) : writesWord i.op = true → cw.length = s.cw.length →
      Effect c i s (respond .ok .none { s with cw := cw })
  /-- TRANSMIT puts a frame in the output buffer. -/
  | frame : i = .transmit →
      Effect c i s (respond .ok .none (putFrame (pulseEncode c (memRead s.cw 0 c.wordLen)) s))

theorem readField_value_lt (c : Config) (cw : List Bit) {first last : Nat} (h : fieldOutOfRange c first last = false) :
    bitsVal (memRead cw first (last - first + 1)) < 2 ^ c.wordLen := by
  obtain ⟨h1, h2⟩ := (fieldOutOfRange_eq_false_iff ..).1 h
  refine Nat.lt_of_lt_of_le (bitsVal_lt _) (Nat.pow_le_pow_right (by decide) ?_)
  simp only [memRead, List.length_take]
  omega

/-- Every accepted instruction leads to a next state, which is one of its effects. -/
theorem execOn_effect (c : Config) (i : Instr) (s : State) : ∃ s', execOn c i s = .next s' ∧ Effect c i s s' := by
  cases i with
  | readField first last =>
    simp only [execOn, readFieldOn]
    split
    · exact ⟨_, rfl, .rangeError rfl⟩
    · next h =>
      refine ⟨_, rfl, .answer _ ?_ rfl (by simp [Instr.op])⟩
      rintro v ⟨⟩
      exact readField_value_lt c s.cw (by simpa using h)
  | writeField first last value =>
    simp only [execOn, writeFieldOn]
    split
    · exact ⟨_, rfl, .rangeError rfl⟩
    · exact ⟨_, rfl, .write _ rfl (memWrite_length ..)⟩
  | replaceRange first last pattern =>
    simp only [execOn, replaceRangeOn]
    split
    · exact ⟨_, rfl, .invalid rfl⟩
    · exact ⟨_, rfl, .write _ rfl (memWrite_length ..)⟩
  | equalsRange first last pattern =>
    simp only [execOn, equalsRangeOn]
    split
    · exact ⟨_, rfl, .answer _ (by rintro v ⟨⟩) rfl (by simp [Instr.op])⟩
    · split
      · exact ⟨_, rfl, .rangeError rfl⟩
      · exact ⟨_, rfl, .answer _ (by rintro v ⟨⟩) rfl (by simp [Instr.op])⟩
  | setPower on => exact ⟨_, rfl, .write _ rfl (memWrite_length ..)⟩
  | incTemp =>
    simp only [execOn, incTempOn]
    refine ⟨_, rfl, ?_⟩
    split
    · exact .write s.cw rfl rfl
    · exact .write (raiseTemp c s).cw rfl (by simp [raiseTemp])
  | decTemp =>
    simp only [execOn, decTempOn]
    refine ⟨_, rfl, ?_⟩
    split
    · exact .write s.cw rfl rfl
    · exact .write (lowerTemp c s).cw rfl (by simp [lowerTemp])
  | encode bits => exact ⟨_, rfl, .answer _ (by rintro v ⟨⟩) rfl (by simp [Instr.op])⟩
  | transmit => exact ⟨_, rfl, .frame rfl⟩

/-- Everything the turn of an agent can make of a state. -/
inductive TurnEffect (c : Config) (t : Turn) (s : State) : State → Prop where
  /-- The agent has no enabled step and the turn passes: nothing presented, a command held, a faulted block, or no
  frame pending. -/
  | pass : (t = .port ∧ (s.port = [] ∨ portOpen s = false)) ∨ (t = .driver ∧ s.out = none) → TurnEffect c t s s
  /-- The port accepts an illegal command. -/
  | illegal (cmd : Command) (rest : List Command) (r : Reject) : t = .port → s.port = cmd :: rest → portOpen s = true →
      decodeOn c cmd = .error r → TurnEffect c t s (takeFault .illegalCommand { s with port := rest })
  /-- The port accepts a command, which runs. -/
  | run (cmd : Command) (rest : List Command) (i : Instr) (s' : State) : t = .port → s.port = cmd :: rest →
      portOpen s = true → decodeOn c cmd = .ok i → execOn c i { s with port := rest } = .next s' →
      Effect c i { s with port := rest } s' → TurnEffect c t s s'
  /-- The driver accepts the pending frame. -/
  | deliver (frame : List PulseItem) : t = .driver → s.out = some frame → TurnEffect c t s (deliverFrame frame s)
  /-- Reset. -/
  | reset : t = .reset → TurnEffect c t s (resetBlock c s)

/-- Every turn leads to a next state, which is one of its effects. -/
theorem runTurn_effect (c : Config) (t : Turn) (s : State) :
    ∃ s', runTurn c (execOn c) t s = .next s' ∧ TurnEffect c t s s' := by
  cases t with
  | port =>
    simp only [runTurn, portTurn]
    split
    · next h => exact ⟨s, rfl, .pass (.inl ⟨rfl, .inl h⟩)⟩
    · next cmd rest h =>
      split
      · next ho =>
        cases hd : decodeOn c cmd with
        | error r => exact ⟨_, by simp only [acceptCommand, hd], .illegal cmd rest r rfl h ho hd⟩
        | ok i =>
          obtain ⟨s', he, hs⟩ := execOn_effect c i { s with port := rest }
          exact ⟨s', by simp only [acceptCommand, hd, he], .run cmd rest i s' rfl h ho hd he hs⟩
      · next ho => exact ⟨s, rfl, .pass (.inl ⟨rfl, .inr (by simpa using ho)⟩)⟩
  | driver =>
    simp only [runTurn, driverTurn]
    split
    · next h => exact ⟨s, rfl, .pass (.inr ⟨rfl, h⟩)⟩
    · next frame h => exact ⟨_, rfl, .deliver frame rfl h⟩
  | reset => exact ⟨_, rfl, .reset rfl⟩

/-- `advance` is the state a turn leads to. -/
theorem runTurn_eq_advance (c : Config) (t : Turn) (s : State) : runTurn c (execOn c) t s = .next (advance c t s) := by
  obtain ⟨s', h, -⟩ := runTurn_effect c t s
  simp only [advance, h]

theorem advance_effect (c : Config) (t : Turn) (s : State) : TurnEffect c t s (advance c t s) := by
  obtain ⟨s', h, he⟩ := runTurn_effect c t s
  have := runTurn_eq_advance c t s
  rw [h] at this
  injection this with this
  exact this ▸ he

/-- A step with a turn to give leads to the state of that turn. -/
theorem stepOn_cons (c : Config) (s : State) (t : Turn) (ts : List Turn) (h : s.turns = t :: ts) :
    stepOn c s = .next (advance c t { s with turns := ts }) := by
  simp only [stepOn, stepWith, h, runTurn_eq_advance]

/-- A step that leads to a state is the turn of the agent that comes next. -/
theorem stepOn_eq_next {c : Config} {s s' : State} (h : stepOn c s = .next s') :
    ∃ t ts, s.turns = t :: ts ∧ TurnEffect c t { s with turns := ts } s' := by
  cases ht : s.turns with
  | nil => simp [stepOn, stepWith, ht] at h
  | cons t ts =>
    rw [stepOn_cons c s t ts ht] at h
    injection h with h
    exact ⟨t, ts, rfl, h ▸ advance_effect c t _⟩

/-- An instruction's effect keeps the word's form. -/
theorem Effect.wf {c : Config} {i : Instr} {s s' : State} (h : Effect c i s s') (hw : Memory.wf c s.cw = true) :
    Memory.wf c s'.cw = true := by
  cases h <;> simp_all [Memory.wf]

/-- A step keeps the word's form, where the baseline has it. -/
theorem stepOn_wf {c : Config} {s s' : State} (hb : c.baseline.length = c.wordLen) (hw : Memory.wf c s.cw = true)
    (h : stepOn c s = .next s') : Memory.wf c s'.cw = true := by
  obtain ⟨t, ts, -, he⟩ := stepOn_eq_next h
  cases he with
  | pass => exact hw
  | illegal => exact hw
  | run _ _ _ _ _ _ _ _ _ hy => exact hy.wf hw
  | deliver => exact hw
  | reset => exact (Memory.wf_iff ..).2 hb

end Sys2Proof.Machine
end

