-- ==== Sys2Proof/Tests/Slice0.lean ====
section
/-! SUPPORT. Tests: words written out from the encodings of 30_encoding.md, the well-formedness checks, the vectors of
95_test_vectors.md (each test names its own), and a witness for the hypotheses of each statement. -/

namespace Sys2Proof.Tests
open Sys2Proof.Machine

/-! ## Decoding, bit by bit: RSV, LEN, END, START, ON, OP -/

theorem test_decode_readField :
    decode ⟨0b00000000_0000000_001111_001100_0_0001#32, ⟨0, 0⟩⟩ = .ok (.readField 12 15) := by decide
theorem test_decode_writeField :
    decode ⟨0b00000000_0000000_101011_101000_0_0010#32, ⟨64, 0xFFFFFFFFFFFFFFF3⟩⟩ =
      .ok (.writeField 40 43 0xFFFFFFFFFFFFFFF3) := by decide
theorem test_decode_replaceRange :
    decode ⟨0b00000000_0000100_000111_000100_0_0011#32, ⟨4, 0b1000⟩⟩ =
      .ok (.replaceRange 4 7 [true, false, false, false]) := by decide
theorem test_decode_equalsRange :
    decode ⟨0b00000000_0000100_001111_001100_0_0100#32, ⟨4, 0b1011⟩⟩ =
      .ok (.equalsRange 12 15 [true, false, true, true]) := by decide
theorem test_decode_setPower :
    decode ⟨0b00000000_0000000_000000_000000_1_0101#32, ⟨0, 0⟩⟩ = .ok (.setPower true) := by decide
theorem test_decode_incTemp :
    decode ⟨0b00000000_0000000_000000_000000_0_0110#32, ⟨0, 0⟩⟩ = .ok .incTemp := by decide
theorem test_decode_decTemp :
    decode ⟨0b00000000_0000000_000000_000000_0_0111#32, ⟨0, 0⟩⟩ = .ok .decTemp := by decide
theorem test_decode_encode :
    decode ⟨0b00000000_0000000000000000010_0_1000#32, ⟨2, 0b10⟩⟩ = .ok (.encode [true, false]) := by decide
theorem test_decode_transmit :
    decode ⟨0b00000000_0000000_000000_000000_0_1001#32, ⟨0, 0⟩⟩ = .ok .transmit := by decide
/-- V-HDR-4 to V-HDR-9. -/
theorem test_decode_illegal :
    decode ⟨0x00000000#32, ⟨0, 0⟩⟩ = .error .reservedOpcode ∧ decode ⟨0x0000000A#32, ⟨0, 0⟩⟩ = .error .reservedOpcode ∧
    decode ⟨0x00000016#32, ⟨0, 0⟩⟩ = .error .unusedBits ∧ decode ⟨0x01000009#32, ⟨0, 0⟩⟩ = .error .reservedBits ∧
    decode ⟨0x00027981#32, ⟨0, 0⟩⟩ = .error .unusedBits ∧
    decode ⟨0x00083883#32, ⟨3, 0⟩⟩ = .error .operandLength := by decide
theorem test_decodeTableWord :
    decodeTableWord 32 0x00000001 = some (.readField 0 0) ∧ decodeTableWord 32 0x00000002 = some (.writeField 0 0 0) ∧
    decodeTableWord 32 0x00000009 = some .transmit ∧ decodeTableWord 32 0x0000000C = none ∧
    decodeTableWord 96 (0x00007982 + 2 ^ 32 * 17) = some (.writeField 12 15 17) := by decide
/-- A realisation that lowers `MAX_ENCODE_BITS` (notes/assumptions/13.md). -/
theorem test_decode_countTooLarge :
    decodeOn { Config.ref with maxEncodeBits := 1 } ⟨0x00000048#32, ⟨2, 0b10⟩⟩ = .error .countTooLarge := by decide

/-! ## WellFormed refuses -/

theorem test_illFormed_first : Instr.wellFormed Config.ref (.readField 64 15) = false := by decide
theorem test_illFormed_last : Instr.wellFormed Config.ref (.readField 12 64) = false := by decide
theorem test_illFormed_value : Instr.wellFormed Config.ref (.writeField 12 15 (2 ^ 64)) = false := by decide
theorem test_illFormed_pattern : Instr.wellFormed Config.ref (.replaceRange 4 7 (List.replicate 128 true)) = false := by
  simp [Instr.wellFormed, patternFits]
theorem test_illFormed_equalsPattern :
    Instr.wellFormed Config.ref (.equalsRange 4 7 (List.replicate 128 true)) = false := by
  simp [Instr.wellFormed, patternFits]
theorem test_illFormed_bits : Instr.wellFormed Config.ref (.encode (List.replicate (2 ^ 19) true)) = false := by
  simp only [Instr.wellFormed, bitsFit, List.length_replicate]
  rfl
theorem test_illFormed_bits_over_maximum :
    Instr.wellFormed { Config.ref with maxEncodeBits := 1 } (.encode [true, true]) = false := by decide
theorem test_illFormed_data : DataWord.wellFormed ⟨3, 8⟩ = false := by decide
theorem test_wellFormed_boundary :
    Instr.wellFormed Config.ref (.writeField 63 63 (2 ^ 64 - 1)) = true ∧
    Instr.wellFormed Config.ref (.replaceRange 0 63 (List.replicate 127 true)) = true ∧
    Instr.wellFormed Config.ref (.encode []) = true := by
  refine ⟨by decide, ?_, by decide⟩
  simp only [Instr.wellFormed, patternFits, List.length_replicate]
  rfl

/-! ## The assembler (R70, R71) -/

theorem test_assemble_hex :
    assembleLine Config.ref "WRITE_FIELD 12, 15, 0x1F".toList = some [.writeField 12 15 31] := by decide
theorem test_assemble_event : assembleLine Config.ref "EV_TEMP_UP".toList = some [.incTemp, .transmit] := by decide
theorem test_assemble_refuses : assembleLine Config.ref "READ_FIELD 12, 64".toList = none := by decide

/-! ## One step each -/

/-- The next state, where there is one. -/
def stateOf : Outcome → Option State
  | .next s => some s
  | .fault _ => none
  | .refused _ => none

/-- The state after reset with TEMP and MIRROR set. -/
def withTempMirror (t m : Nat) : State :=
  { State.reset with cw := memWrite (memWrite State.reset.cw 12 (bitsBE t 4)) 40 (bitsBE m 4) }

/-- TEMP and MIRROR after an instruction. -/
def tempMirror (i : Instr) (s : State) : Option (Nat × Nat) :=
  (stateOf (exec i s)).map fun x => (bitsVal (memRead x.cw 12 4), bitsVal (memRead x.cw 40 4))

/-- V-RF-5. -/
theorem test_readField_whole :
    (stateOf (exec (.readField 0 43) State.reset)).map (·.resp) = some ⟨.ok, .nat 0x28480000009⟩ := by decide
/-- V-RF-9. -/
theorem test_readField_beyond :
    (stateOf (exec (.readField 44 44) State.reset)).map (·.status.word) = some 0x06#8 := by decide
/-- V-WF-5. -/
theorem test_writeField_truncates :
    (stateOf (exec (.writeField 40 43 0xFFFFFFFFFFFFFFF3) State.reset)).map (fun x => memRead x.cw 40 4) =
      some [false, false, true, true] := by decide
/-- V-WF-10. -/
theorem test_writeField_beyond :
    stateOf (exec (.writeField 43 44 1) State.reset) = some (takeFault .rangeError State.reset) := by decide
/-- V-RR-6. -/
theorem test_replaceRange_empty :
    stateOf (exec (.replaceRange 44 43 []) State.reset) = some State.reset := by decide
/-- V-RR-4. -/
theorem test_replaceRange_beyond :
    stateOf (exec (.replaceRange 41 44 [true, true, true, true]) State.reset) =
      some { State.reset with resp := ⟨.validationError, .none⟩ } := by decide
/-- V-EQ-5. -/
theorem test_equalsRange_length_first :
    (stateOf (exec (.equalsRange 43 44 [true]) State.reset)).map (·.resp) = some ⟨.ok, .bool false⟩ := by decide
/-- V-EQ-4. -/
theorem test_equalsRange_beyond :
    (stateOf (exec (.equalsRange 43 44 [true, false]) State.reset)).map (·.status.word) = some 0x06#8 := by decide
/-- V-PWR-2. -/
theorem test_setPower_off :
    (stateOf (exec (.setPower false) State.reset)).map (fun x => bitsVal x.cw) = some 0x20480000009 := by decide
/-- V-PWR-3. -/
theorem test_setPower_on :
    (stateOf (exec (.setPower true) { State.reset with cw := bitsBE 0x20480000009 44 })).map (·.cw) =
      some State.reset.cw := by decide
/-- V-INC-5. -/
theorem test_incTemp_wraps : tempMirror .incTemp (withTempMirror 15 3) = some (0, 2) := by decide
/-- V-INC-2. -/
theorem test_incTemp_floors : tempMirror .incTemp (withTempMirror 10 0) = some (11, 0) := by decide
/-- V-DEC-4. -/
theorem test_decTemp_wraps : tempMirror .decTemp (withTempMirror 2 15) = some (1, 0) := by decide
/-- V-DEC-2. -/
theorem test_decTemp_blocked : tempMirror .decTemp (withTempMirror 0 7) = some (0, 7) := by decide

/-- The small configuration SMALL of 95_test_vectors.md §2.7. -/
def small : Config :=
  { Config.ref with tHigh := 1, tLow := 1, tLead := 5, tLeadGap := 4, tZero := 3, tOne := some 7 }

/-- V-ENC-6. -/
theorem test_encode_small : (stateOf (execOn small (.encode [true, false]) State.reset)).map (·.resp) =
    some ⟨.ok, .timeline [⟨.high, 1, .low, 1⟩, ⟨.high, 1, .low, 1⟩, ⟨.high, 4, .low, 0⟩, ⟨.high, 1, .low, 1⟩,
      ⟨.high, 7, .low, 0⟩, ⟨.high, 1, .low, 1⟩, ⟨.high, 3, .low, 0⟩, ⟨.high, 1, .low, 1⟩, ⟨.high, 0, .high, 0⟩]⟩ := by
  decide
/-- V-ENC-8. -/
theorem test_encode_degenerate :
    (stateOf (execOn { small with tLead := 1, tZero := 1 } (.encode [true, false]) State.reset)).map (·.resp) =
      some ⟨.ok, .timeline [⟨.high, 4, .low, 0⟩, ⟨.high, 7, .low, 0⟩, ⟨.high, 1, .low, 0⟩, ⟨.high, 0, .high, 0⟩]⟩ := by
  decide
/-- V-TX-1. -/
theorem test_transmit_busy : (stateOf (exec .transmit State.reset)).map (·.status.word) = some 0x01#8 := by decide
/-- V-ENC-4: the frame of BASELINE has BT(1) at 412, and BT(0) at 368. -/
theorem test_transmit_items :
    (stateOf (exec .transmit State.reset)).bind (fun x => x.out.bind (·[412]?)) =
      some ⟨.high, Config.tOneOpen, .low, 0⟩ ∧
    (stateOf (exec .transmit State.reset)).bind (fun x => x.out.bind (·[368]?)) = some ⟨.high, 560, .low, 0⟩ :=
  ⟨rfl, rfl⟩

/-! ## States the witnesses use -/

/-- A state whose port has the turn and a command to accept. -/
def presented (cmd : Command) : State := { State.reset with port := [cmd], turns := [.port] }

/-- A state with the frame of BASELINE pending, and the given turns. -/
def pending (ts : List Turn) : State :=
  { State.reset with
    out := some (pulseEncode Config.device State.reset.cw), status := ⟨true, false, .none⟩, turns := ts }

/-- A faulted state, and the given turns. -/
def faulted (ts : List Turn) : State := { State.reset with status := ⟨false, true, .rangeError⟩, turns := ts }

theorem pending_inv (ts : List Turn) : Inv Config.device (pending ts) :=
  ⟨by rfl, ⟨fun _ => Option.some_ne_none _, fun _ => rfl⟩, ⟨fun h => (nomatch h), fun h => absurd rfl h⟩, fun h => (nomatch h)⟩

theorem pending_frameOfWord (ts : List Turn) : FrameOfWord Config.device (pending ts) := by
  intro t h
  have e : memRead (pending ts).cw 0 Config.device.wordLen = State.reset.cw := by
    show memRead State.reset.cw 0 44 = State.reset.cw
    decide
  rw [e]
  exact (Option.some.inj h).symm

/-- V-TX-3: a command presented while BUSY is held. -/
theorem test_step_held :
    step { pending [.port] with port := [⟨0x00000006#32, ⟨0, 0⟩⟩] } =
      .next { pending [] with port := [⟨0x00000006#32, ⟨0, 0⟩⟩] } := rfl
/-- V-FLT-4. -/
theorem test_step_illegal :
    (stateOf (step (presented ⟨0x0000000F#32, ⟨0, 0⟩⟩))).map (fun x => (x.status.word, x.cw)) =
      some (0x0A#8, State.reset.cw) := by decide
/-- V-TX-2: driver accept. -/
theorem test_step_accept :
    step (pending [.driver]) =
      .next { State.reset with delivered := [pulseEncode Config.device State.reset.cw] } := rfl

/-! ## Witnesses: concrete states and operands that meet the hypotheses of the statements -/

theorem witness_AtMostOneRowMatchesAHeader :
    ∃ r ∈ opcodeRows, r.selects 0x00007981#32 = true := by decide
theorem witness_DecodeInvertsEncode :
    Instr.wellFormed Config.ref (.writeField 63 63 (2 ^ 64 - 1)) = true ∧
      decodeOn Config.ref (encode (.writeField 63 63 (2 ^ 64 - 1))) = .ok (.writeField 63 63 (2 ^ 64 - 1)) := by decide
theorem witness_EncodeInvertsDecode :
    decodeOn Config.ref ⟨0x00FE001F#32 &&& 0x00FFFFE4#32, ⟨127, 1⟩⟩ =
      .ok (.equalsRange 0 0 (List.replicate 126 false ++ [true])) := by decide
/-- Each way a command can be illegal, at a boundary; and a legal one. -/
theorem witness_IllegalCommandsAreExactlyTheListed :
    (∀ cmd ∈ [Command.mk 0x0#32 ⟨0, 0⟩, ⟨0xA#32, ⟨0, 0⟩⟩, ⟨0xF#32, ⟨0, 0⟩⟩, ⟨0x80000009#32, ⟨0, 0⟩⟩, ⟨0x11#32, ⟨0, 0⟩⟩,
        ⟨0x20001#32, ⟨0, 0⟩⟩, ⟨0x12#32, ⟨64, 0⟩⟩, ⟨0x13#32, ⟨0, 0⟩⟩, ⟨0x18#32, ⟨0, 0⟩⟩, ⟨0x25#32, ⟨0, 0⟩⟩,
        ⟨0x16#32, ⟨0, 0⟩⟩, ⟨0x29#32, ⟨0, 0⟩⟩, ⟨0x6#32, ⟨1, 0⟩⟩, ⟨0x2#32, ⟨63, 0⟩⟩, ⟨0x2#32, ⟨65, 0⟩⟩,
        ⟨0x20003#32, ⟨0, 0⟩⟩, ⟨0x3#32, ⟨1, 0⟩⟩, ⟨0x28#32, ⟨0, 0⟩⟩, ⟨0x8#32, ⟨1, 0⟩⟩],
      cmd.data.wellFormed = true ∧ (decode cmd).toOption = none) ∧
    (decode ⟨0x6#32, ⟨0, 0⟩⟩).toOption = some .incTemp := by decide
theorem witness_HeaderFixesTheTotalLength :
    [0x00000009#32, 0x00000015#32, 0x00007981#32, 0x00007982#32, 0x00FE0003#32, 0x00FFFFE8#32].map
      (fun h => (commandLen h)) = [some 32, some 32, some 32, some 96, some 159, some 524319] := by decide
theorem witness_AssemblerReadsInstructionText :
    assembleLine Config.ref (Instr.text (.readField 0 63)) = some [.readField 0 63] := by decide
theorem witness_StepRunsTheDecodedInstruction :
    (presented (encode .incTemp)).turns = .port :: [] ∧ (presented (encode .incTemp)).port = encode .incTemp :: [] ∧
      (presented (encode .incTemp)).status.faulted = false ∧ (presented (encode .incTemp)).status.busy = false ∧
      decode (encode .incTemp) = .ok .incTemp := by decide
theorem witness_PlacedCommandRunsNext :
    Instr.wellFormed Config.device (.writeField 12 15 17) = true ∧ State.reset.status.faulted = false ∧
      State.reset.status.busy = false := by decide
theorem witness_EveryTurnLeadsToANextState : (faulted []).turns = [] ∧ (faulted [.reset]).turns = .reset :: [] ∧
    (pending [.port]).turns = .port :: [] ∧ (pending [.port]).port = [] := ⟨rfl, rfl, rfl, rfl⟩
theorem witness_ResetSetsEveryElement : (pending [.reset]).turns = .reset :: [] := rfl
theorem witness_OnlyResetClearsFaulted :
    step (faulted [.reset]) = .next State.reset ∧ (faulted [.reset]).status.faulted = true ∧
      State.reset.status.faulted = false := ⟨rfl, rfl, rfl⟩
theorem witness_FaultIsTakenAndSticky :
    (presented ⟨0xA#32, ⟨0, 0⟩⟩).status.faulted = false ∧ (presented ⟨0xA#32, ⟨0, 0⟩⟩).status.busy = false ∧
    decode ⟨0xA#32, ⟨0, 0⟩⟩ = .error .reservedOpcode ∧
    exec (.readField 44 44) State.reset = .next (takeFault .rangeError State.reset) ∧
    (takeFault .rangeError State.reset).status.faulted = true ∧
    step (faulted [.port]) = .next (faulted []) := ⟨rfl, rfl, by decide, rfl, rfl, rfl⟩
theorem witness_BusyHoldsEveryCommand :
    (pending [.port]).status.busy = true ∧ step (pending [.reset]) = .next State.reset ∧
      State.reset.status.busy = false := ⟨rfl, rfl, rfl⟩
theorem witness_DriverAcceptDeliversTheFrame :
    (pending [.driver]).out ≠ none ∧ (faulted [.driver]).out = none := ⟨Option.some_ne_none _, rfl⟩
theorem witness_CommandAndAcceptNeverBothEnabled : Inv Config.device (pending []) := pending_inv []
theorem witness_ResetDeviceAcceptsAtOnce : decode ⟨0x00000009#32, ⟨0, 0⟩⟩ = .ok .transmit := by decide
theorem witness_FaultingStepIsPrecise :
    step (presented ⟨0xA#32, ⟨0, 0⟩⟩) = .next (takeFault .illegalCommand State.reset) ∧
      (presented ⟨0xA#32, ⟨0, 0⟩⟩).status.faulted = false := ⟨rfl, rfl⟩
theorem witness_StepKeepsTheInvariants :
    configOk Config.device = true ∧ Inv Config.device (pending [.driver]) ∧
      stepOn Config.device (pending [.driver]) =
        .next { State.reset with delivered := [pulseEncode Config.device State.reset.cw] } :=
  ⟨rfl, pending_inv _, rfl⟩
theorem witness_ResetMeetsTheInvariants : configOk small = true := by decide
theorem witness_PendingFrameEncodesTheWord :
    Inv Config.device (pending [.port]) ∧ FrameOfWord Config.device (pending [.port]) ∧
      (pending [.port]).status.busy = true ∧ stepOn Config.device (pending [.port]) = .next (pending []) ∧
      (pending [.port]).turns.head? ≠ some .reset := ⟨pending_inv _, pending_frameOfWord _, rfl, rfl, by decide⟩
theorem witness_StepKeepsRespLegal :
    RespLegal Config.device State.reset ∧ stepOn Config.device (faulted [.reset]) = .next State.reset :=
  ⟨⟨fun _ h => (nomatch h), fun h => (nomatch h)⟩, rfl⟩
theorem witness_DriverReceivesFramesInOrder :
    Inv Config.device (pending [.driver]) ∧ FrameOfWord Config.device (pending [.driver]) ∧
      DeliveredAreFrames Config.device (pending [.driver]) :=
  ⟨pending_inv _, pending_frameOfWord _, fun _ h => (nomatch h)⟩
theorem witness_ReachableTemperatureStaysInRange :
    ReachedWithoutTempWrite { State.reset with port := [encode .incTemp], turns := [.port] } :=
  .reset _ _
theorem witness_StepKeepsTheTemperatureRange :
    Memory.wf Config.device (presented (encode .incTemp)).cw = true ∧
      fieldVal Config.device.fTemp (presented (encode .incTemp)) ≤ 11 ∧
      acceptedInstr Config.device (presented (encode .incTemp)) = some .incTemp ∧
      ¬ writesDirectly Config.device.fTemp .incTemp ∧
      (stateOf (step (presented (encode .incTemp)))).map (fieldVal Config.device.fTemp) = some 9 :=
  ⟨by decide, by decide, by decide, id, by decide⟩
theorem witness_UnnamedCellsKeepTheirBits :
    step (presented (encode (.setPower false))) = exec (.setPower false) State.reset ∧
      acceptedInstr Config.device (presented (encode (.setPower false))) = some (.setPower false) ∧
      (presented (encode (.setPower false))).turns.head? ≠ some .reset := ⟨rfl, by decide, by decide⟩
theorem witness_OnlyWordCommandsChangeTheWord :
    (stateOf (stepOn Config.device (presented (encode (.setPower false))))).map (·.cw) ≠ some State.reset.cw := by decide
theorem witness_OnlyTransmitFillsTheBuffer :
    acceptedInstr Config.device (presented (encode .transmit)) = some .transmit ∧
      (stateOf (stepOn Config.device (presented (encode .transmit)))).map (·.out.isSome) = some true := by decide
theorem witness_NoDriverTurnIsAHang :
    (pending [.port, .port]).status.busy = true ∧ (pending [.port, .port]).turns = List.replicate 2 .port ++ [] ∧
    (faulted [.port, .driver]).status.faulted = true ∧ (faulted [.port, .driver]).out = none ∧
    Turn.reset ∉ [Turn.port, .driver] := ⟨rfl, rfl, rfl, rfl, by decide⟩
theorem witness_FairDriverAcceptsTheFrame :
    Inv Config.device (pending []) ∧ DriverFair Config.device (fun _ => .driver) (pending []) ∧
      (pending []).out = some (pulseEncode Config.device State.reset.cw) :=
  ⟨pending_inv _, fun n _ => ⟨n, Nat.le_refl n, rfl⟩, rfl⟩
theorem witness_StatusWordHasItsFields : State.reset.status.busy = false := rfl
theorem witness_SuccessfulEndReadsZeroStatus : Inv Config.device (pending []) ∧ successfulEnd State.reset = true :=
  ⟨pending_inv _, by decide⟩
/-- Boundaries of the two clauses: `e = 43` and `e = 44`; `s = e` and `s = e + 1`. -/
theorem witness_ReadFieldAnswersTheField :
    Memory.wf Config.device State.reset.cw = true ∧
      (stateOf (exec (.readField 43 43) State.reset)).map (·.resp) = some ⟨.ok, .nat 1⟩ ∧
      (stateOf (exec (.readField 43 44) State.reset)).map (·.status.word) = some 0x06#8 ∧
      (stateOf (exec (.readField 5 4) State.reset)).map (·.status.word) = some 0x06#8 := by decide
theorem witness_WriteFieldWritesTheField :
    (stateOf (exec (.writeField 43 43 2) State.reset)).map (fun x => bitsVal x.cw) = some 0x28480000008 ∧
      (stateOf (exec (.writeField 16 15 1) State.reset)).map (·.status.word) = some 0x06#8 := by decide
theorem witness_WriteThenReadGivesTheValueModulo :
    Memory.wf Config.device State.reset.cw = true ∧ 12 ≤ 15 ∧ 15 < Config.device.wordLen ∧ 11 < 2 ^ (15 - 12 + 1) := by decide
theorem witness_SixtyFourBitsOfValueSuffice :
    Config.device.wordLen ≤ 64 ∧ Memory.wf Config.device State.reset.cw = true ∧ 0 ≤ 43 ∧ 43 < Config.device.wordLen := by
  decide
/-- The three clauses at their boundaries (V-RR-5, V-RR-7, V-RR-8, V-RR-9). -/
theorem witness_ReplaceRangeIsAllOrNothing :
    stateOf (exec (.replaceRange 5 4 []) State.reset) = some State.reset ∧
    (stateOf (exec (.replaceRange 6 4 []) State.reset)).map (·.resp.code) = some .validationError ∧
    (stateOf (exec (.replaceRange 4 4 []) State.reset)).map (·.resp.code) = some .validationError ∧
    (stateOf (exec (.replaceRange 0 43 (List.replicate 44 false)) State.reset)).map (fun x => bitsVal x.cw) = some 0 := by
  decide
/-- The three clauses at their boundaries (V-EQ-1, V-EQ-6, V-EQ-7). -/
theorem witness_EqualsRangeComparesTheCells :
    (stateOf (exec (.equalsRange 12 15 [true, false, false, false]) State.reset)).map (·.resp.data) = some (.bool true) ∧
    (stateOf (exec (.equalsRange 5 4 []) State.reset)).map (·.resp.data) = some (.bool true) ∧
    (stateOf (exec (.equalsRange 0 43 State.reset.cw) State.reset)).map (·.resp.data) = some (.bool true) := by decide
theorem witness_PrimitivesChangeOnlyTheirRange :
    exec (.replaceRange 4 7 [true]) State.reset = .next { State.reset with resp := ⟨.validationError, .none⟩ } ∧
      State.reset.status.faulted = false := ⟨rfl, rfl⟩
theorem witness_ReadsArePureAndWritesIdempotent :
    exec (.readField 4 7) State.reset = .next { State.reset with resp := ⟨.ok, .nat 8⟩ } := rfl
/-- One cell at the word's end, two adjacent ranges that fill the word, and two writes that overlap. -/
theorem witness_MixedWidthReadsAgree :
    Memory.wf Config.device State.reset.cw = true ∧ State.reset.cell 43 = some true ∧ (0 ≤ 0 ∧ 0 < 43 ∧ 43 < 44) ∧
      ((stateOf (exec (.writeField 12 15 15) State.reset)).bind fun t => stateOf (exec (.writeField 14 43 0) t)).map
        (fun u => memRead u.cw 12 4) = some [true, true, false, false] := by decide
theorem witness_SetPowerWritesItsLiteral : Memory.wf Config.device State.reset.cw = true := by decide
theorem witness_IncTempStepsTempAndMirror :
    memRead (withTempMirror 11 5).cw 12 4 = [true, false, true, true] ∧
      memRead (withTempMirror 15 0).cw 12 4 ≠ [true, false, true, true] := by decide
theorem witness_DecTempStepsTempAndMirror :
    memRead (withTempMirror 0 5).cw 12 4 = [false, false, false, false] ∧
      memRead (withTempMirror 15 0).cw 12 4 ≠ [false, false, false, false] := by decide
theorem witness_LimitPatternBlocksTheChange :
    fieldBits Config.device.fTemp (withTempMirror 11 5) = Config.device.patTempMax ∧
      fieldBits Config.device.fTemp (withTempMirror 0 5) = Config.device.patTempMin := by decide
theorem witness_TempAndMirrorCoupleAsymmetrically :
    configOk small = true ∧ Memory.wf small State.reset.cw = true ∧ small.fTemp.last < small.fMirror.first ∧
      fieldVal small.fTemp State.reset ≠ bitsVal small.patTempMax ∧
      fieldVal small.fTemp State.reset ≠ bitsVal small.patTempMin := by decide
/-- The counterexample's state, and the sums at the boundaries: TEMP 15, MIRROR 0 and the blocked TEMP 11. -/
theorem witness_TempMirrorSumIsNoInvariant :
    fieldVal Config.device.fTemp (withTempMirror 2 15) = 2 ∧ fieldVal Config.device.fMirror (withTempMirror 2 15) = 15 ∧
      tempMirror .incTemp (withTempMirror 15 0) = some (0, 0) ∧ tempMirror .incTemp (withTempMirror 11 0) = some (11, 0) ∧
      tempMirror .decTemp (withTempMirror 0 15) = some (0, 15) := by
  decide
/-- A configuration whose TEMP and MIRROR overlap is accepted too (R174). -/
theorem witness_MutatorsAreBuiltFromPrimitives :
    configOk { small with fMirror := ⟨14, 17⟩ } = true ∧
      Memory.wf { small with fMirror := ⟨14, 17⟩ } State.reset.cw = true := by decide
theorem witness_MutatorsNeverFail : configOk small = true := by decide
theorem witness_DegenerateConstantsShrinkTheFrame :
    ({ small with tLead := 1, tZero := 1 } : Config).tLead < small.tHigh + small.tLow ∧
      ({ small with tOne := some 3 } : Config).oneGap = small.tZero := by decide
theorem witness_FrameDeterminesItsBits : small.oneGap ≠ small.tZero := by decide
theorem witness_TransmitBuffersTheFrame :
    Memory.wf Config.device State.reset.cw = true ∧ Inv Config.device (pending [.port]) ∧
      step (pending [.port]) = .next (pending []) := ⟨by decide, pending_inv _, rfl⟩
/-- A carrier period at its boundary, and the reference one. -/
theorem witness_EncodeAnswersTheTimeline :
    1 ≤ ({ small with tHigh := 0 } : Config).tHigh + ({ small with tHigh := 0 } : Config).tLow ∧
      1 ≤ Config.device.tHigh + Config.device.tLow := by decide
theorem witness_TimelineLengthIsClosedForm : 1 ≤ small.tHigh + small.tLow := by decide
theorem witness_TimelineDurationsAddUp : 26 = Config.device.tHigh + Config.device.tLow ∧ 1 ≤ 26 := by decide
theorem witness_TimelineItemAtEveryPosition :
    1 ≤ Config.device.tHigh + Config.device.tLow ∧ 346 = Config.device.tLead / (Config.device.tHigh + Config.device.tLow) ∧
      21 = Config.device.tZero / (Config.device.tHigh + Config.device.tLow) := by decide
theorem witness_RefusedConfigurationsHaveNoState :
    initialState small = some (State.resetOf small) ∧ initialState { small with tHigh := 0, tLow := 0 } = none ∧
    initialState { small with baseline := [] } = none ∧ initialState { small with fPower := ⟨5, 4⟩ } = none ∧
    initialState { small with patOn := [true] } = none ∧ initialState { small with patTempMin := [true] } = none ∧
    initialState { small with wordLen := 64, baseline := List.replicate 64 false } = none ∧
    initialState { small with tOne := none } = none ∧ initialState { small with durW := some 2 } = none ∧
    initialState { small with maxEncodeBits := 2 ^ 19 } = none := by decide

end Sys2Proof.Tests
end

section
/-! PROOFS. The decoder and the encoder invert each other (O2, O3). -/

namespace Sys2Proof

/-! ### The header's fields -/

theorem startField_lt (h : Header) : startField h < 64 := (h.extractLsb' 5 6).isLt
theorem endField_lt (h : Header) : endField h < 64 := (h.extractLsb' 11 6).isLt
theorem lenField_lt (h : Header) : lenField h < 128 := (h.extractLsb' 17 7).isLt
theorem countField_lt (h : Header) : countField h < 2 ^ 19 := (h.extractLsb' 5 19).isLt

/-- ON read as a boolean operand and written back is ON. -/
theorem onField_beq_one_toNat (h : Header) : (onField h == 1).toNat = onField h := by
  have hlt : onField h < 2 := (h.extractLsb' 4 1).isLt
  interval_cases onField h <;> rfl

theorem startField_packHeader {op on start stop len : Nat} (hop : op < 16) (hon : on < 2) (hs : start < 64)
    (he : stop < 64) (hl : len < 128) : startField (packHeader op on start stop len) = start := by
  rw [startField_eq, packHeader_toNat _ _ _ _ _ (by omega)]
  omega

theorem endField_packHeader {op on start stop len : Nat} (hop : op < 16) (hon : on < 2) (hs : start < 64)
    (he : stop < 64) (hl : len < 128) : endField (packHeader op on start stop len) = stop := by
  rw [endField_eq, packHeader_toNat _ _ _ _ _ (by omega)]
  omega

/-- A header is the one packed from any fields that add up to its number. -/
theorem packHeader_eq_of_toNat {h : Header} {op on start stop len : Nat}
    (hn : h.toNat = op + 16 * on + 32 * start + 2048 * stop + 131072 * len) :
    packHeader op on start stop len = h := by
  have hlt := h.isLt
  apply BitVec.eq_of_toNat_eq
  rw [packHeader_toNat _ _ _ _ _ (by omega), hn]

/-! ### The data word -/

@[simp] theorem DataWord.bits_ofBits (l : List Bit) : (DataWord.ofBits l).bits = l := bitsBE_bitsVal l

@[simp] theorem DataWord.bits_length (d : DataWord) : d.bits.length = d.len := bitsBE_length ..

theorem DataWord.val_lt {d : DataWord} (hw : d.wellFormed = true) : d.val < 2 ^ d.len := of_decide_eq_true hw

/-- A word of its stated length is the word of its own bits. -/
theorem DataWord.ofBits_bits {d : DataWord} (hw : d.wellFormed = true) : DataWord.ofBits d.bits = d := by
  simp [DataWord.ofBits, DataWord.bits, Nat.mod_eq_of_lt (DataWord.val_lt hw)]

theorem DataWord.eq_absent {d : DataWord} (hl : d.len = 0) (hw : d.wellFormed = true) : d = .absent := by
  obtain ⟨len, val⟩ := d
  subst hl
  have hval : val = 0 := Nat.lt_one_iff.1 (DataWord.val_lt hw)
  rw [hval, DataWord.absent]

theorem Command.eq_of_header_of_data {a b : Command} (hh : a.header = b.header) (hd : a.data = b.data) : a = b := by
  cases a
  cases b
  cases hh
  cases hd
  rfl

/-! ### Rows -/

@[simp] theorem rowFor_op (op : Op) : (rowFor op).op = op := by cases op <;> rfl

/-- A header selects the row of `op` exactly when it meets that row's condition. -/
theorem rowOf_eq_rowFor_iff (h : Header) (op : Op) : rowOf h = some (rowFor op) ↔ rowCondition h op := by
  constructor
  · intro hr
    obtain ⟨op', hrow, hc⟩ := (rowOf_eq_some_iff _ _).1 hr
    have hop : op = op' := by simpa using congrArg Row.op hrow
    exact hop ▸ hc
  · exact fun hc => (rowOf_eq_some_iff _ _).2 ⟨op, rfl, hc⟩

/-- No configuration admits more instructions than the device, whose `MAX_ENCODE_BITS` is all COUNT can carry. -/
theorem Instr.wellFormed_device {c : Config} {i : Instr} (hi : i.wellFormed c = true) :
    i.wellFormed Config.device = true := by
  cases i with
  | encode bits =>
    simp only [Instr.wellFormed, bitsFit, Bool.and_eq_true, decide_eq_true_eq] at hi ⊢
    exact ⟨hi.1, Nat.le_of_lt_succ hi.1⟩
  | _ => exact hi

/-- Every instruction's command selects its own row (the laws of `SelectsItsRow`, put together). -/
theorem selectsItsRow (i : Instr) : Laws.SelectsItsRow.Statement i := by
  cases i with
  | readField first last => exact Laws.SelectsItsRow.readField first last
  | writeField first last value => exact Laws.SelectsItsRow.writeField first last value
  | replaceRange first last pattern => exact Laws.SelectsItsRow.replaceRange first last pattern
  | equalsRange first last pattern => exact Laws.SelectsItsRow.equalsRange first last pattern
  | setPower on => exact Laws.SelectsItsRow.setPower on
  | incTemp => exact Laws.SelectsItsRow.incTemp
  | decTemp => exact Laws.SelectsItsRow.decTemp
  | encode bits => exact Laws.SelectsItsRow.encode bits
  | transmit => exact Laws.SelectsItsRow.transmit

/-! ### Decode of encode -/

/-- The operands assembled from an instruction's command are the instruction's own (R63). -/
theorem assemble_encode {c : Config} {i : Instr} (hi : i.wellFormed c = true) : assemble i.op (encode i) = i := by
  cases i
  case readField first last =>
    simp only [Instr.wellFormed, indexFits, Bool.and_eq_true, decide_eq_true_eq] at hi
    obtain ⟨hs, he⟩ := hi
    simp [assemble, encode, Instr.op, startField_packHeader, endField_packHeader, hs, he]
  case writeField first last value =>
    simp only [Instr.wellFormed, indexFits, Bool.and_eq_true, decide_eq_true_eq] at hi
    obtain ⟨⟨hs, he⟩, -⟩ := hi
    simp [assemble, encode, Instr.op, startField_packHeader, endField_packHeader, hs, he]
  case replaceRange first last pattern | equalsRange first last pattern =>
    simp only [Instr.wellFormed, indexFits, patternFits, Bool.and_eq_true, decide_eq_true_eq] at hi
    obtain ⟨⟨hs, he⟩, hp⟩ := hi
    simp [assemble, encode, Instr.op, startField_packHeader, endField_packHeader, hs, he, hp]
  case setPower on => cases on <;> rfl
  case encode bits => simp [assemble, encode, Instr.op]
  case incTemp | decTemp | transmit => rfl

/-- The operand of ENCODE is no longer than `MAX_ENCODE_BITS` (R133). -/
theorem encode_data_len_le {c : Config} {i : Instr} (hi : i.wellFormed c = true) (hop : i.op = .encode) :
    (encode i).data.len ≤ c.maxEncodeBits := by
  cases i with
  | encode bits =>
    simp only [Instr.wellFormed, bitsFit, Bool.and_eq_true, decide_eq_true_eq] at hi
    exact hi.2
  | _ => cases hop

/-- Settles O2: the command of a well-formed instruction selects the instruction's row, and that row's operands are
the instruction's. -/
theorem decodeInvertsEncode : Obligations.DecodeInvertsEncode := by
  intro c i hi
  obtain ⟨hrow, hlen, hword⟩ := selectsItsRow i (Instr.wellFormed_device hi)
  exact (decodeOn_eq_ok_iff c _ i).2 ⟨i.op, (rowOf_eq_rowFor_iff _ _).1 hrow, hlen, hword, encode_data_len_le hi,
    (assemble_encode hi).symm⟩

/-! ### Encode of decode -/

/-- The header of the instruction a legal header decodes to is that header: the row's condition leaves no other bit. -/
theorem encode_assemble_header {cmd : Command} {op : Op} (hc : rowCondition cmd.header op)
    (hlen : cmd.data.len = operandLen (rowFor op).format cmd.header) :
    (encode (assemble op cmd)).header = cmd.header := by
  have hs := startField_eq cmd.header
  have he := endField_eq cmd.header
  cases op <;> refine packHeader_eq_of_toNat ?_ <;> simp only [rowCondition] at hc
  case readField | writeField => omega
  case replaceRange | equalsRange =>
    have hl : cmd.data.bits.length = _ := (DataWord.bits_length _).trans (hlen.trans (lenField_eq cmd.header))
    omega
  case setPower =>
    rw [onField_beq_one_toNat, onField_eq]
    omega
  case encode =>
    have hl : cmd.data.bits.length = _ := (DataWord.bits_length _).trans (hlen.trans (countField_eq cmd.header))
    omega
  case incTemp | decTemp | transmit => omega

/-- The operand word of the instruction a legal command decodes to is the command's. -/
theorem encode_assemble_data {cmd : Command} {op : Op} (hlen : cmd.data.len = operandLen (rowFor op).format cmd.header)
    (hw : cmd.data.wellFormed = true) : (encode (assemble op cmd)).data = cmd.data := by
  cases op
  case readField | setPower | incTemp | decTemp | transmit => exact (DataWord.eq_absent hlen hw).symm
  case writeField =>
    change cmd.data.len = 64 at hlen
    simp only [assemble, encode, ← hlen]
  case replaceRange | equalsRange | encode => exact DataWord.ofBits_bits hw

/-- The operands of a legal command fit their encodings (R12, R61). -/
theorem assemble_wellFormed {c : Config} {cmd : Command} {op : Op}
    (hlen : cmd.data.len = operandLen (rowFor op).format cmd.header) (hw : cmd.data.wellFormed = true)
    (hmax : op = .encode → cmd.data.len ≤ c.maxEncodeBits) : (assemble op cmd).wellFormed c = true := by
  have hs := startField_lt cmd.header
  have he := endField_lt cmd.header
  cases op
  case readField => simp [assemble, Instr.wellFormed, indexFits, hs, he]
  case writeField =>
    change cmd.data.len = 64 at hlen
    have hv := DataWord.val_lt hw
    rw [hlen] at hv
    simp [assemble, Instr.wellFormed, indexFits, valueFits, hs, he, -Nat.reducePow, hv]
  case replaceRange | equalsRange =>
    have hl : cmd.data.len < 128 := hlen ▸ lenField_lt cmd.header
    simp [assemble, Instr.wellFormed, indexFits, patternFits, hs, he, hl]
  case encode =>
    have hl : cmd.data.len < 2 ^ 19 := hlen ▸ countField_lt cmd.header
    simp [assemble, Instr.wellFormed, bitsFit, -Nat.reducePow, hl, hmax]
  case setPower | incTemp | decTemp | transmit => rfl

/-- Settles O3: the row a command selects fixes every header bit outside its operands, and the operands keep the
rest. -/
theorem encodeInvertsDecode : Obligations.EncodeInvertsDecode := by
  intro c cmd i h
  obtain ⟨op, hc, hlen, hw, hmax, rfl⟩ := (decodeOn_eq_ok_iff c cmd i).1 h
  exact ⟨Command.eq_of_header_of_data (encode_assemble_header hc hlen) (encode_assemble_data hlen hw),
    assemble_wellFormed hlen hw hmax⟩

end Sys2Proof
end

section
/-! PROOFS. The durations of the encoder's segments and of the frame (O53). -/

namespace Sys2Proof.Machine

theorem leadCode_duration (c : Config) :
    totalDuration (leadCode c) = nLead c * carrierPeriod c + c.tLeadGap := by
  simp [leadCode, totalDuration, carrier, PulseItem.duration, carrierPeriod, leadTerm]

/-- The end-of-frame marker lasts its carriers: its last item has no duration. -/
theorem endOfFrame_duration (c : Config) : totalDuration (endOfFrame c) = mBit c * carrierPeriod c := by
  simp [endOfFrame, totalDuration, carrier, PulseItem.duration, carrierPeriod, endMark]

/-- The bursts of a bit list last their carriers, one `T_ONE` a 1 bit and one `T_ZERO` a 0 bit. -/
theorem bursts_duration (c : Config) (bits : List Bit) :
    totalDuration (bits.flatMap (burst c)) =
      bits.length * mBit c * carrierPeriod c + bits.count true * c.oneGap + bits.count false * c.tZero := by
  induction bits with
  | nil => simp [totalDuration]
  | cons b bits ih =>
    rw [List.flatMap_cons, totalDuration_append, burst_duration, ih]
    cases b with
    | false => simp [gapOf]; ring
    | true => simp [gapOf]; ring

theorem pulseEncode_duration (c : Config) (bits : List Bit) :
    totalDuration (pulseEncode c bits) = nLead c * carrierPeriod c + c.tLeadGap +
      bits.length * mBit c * carrierPeriod c + bits.count true * c.oneGap +
      (bits.length - bits.count true) * c.tZero + mBit c * carrierPeriod c := by
  have hzeros : bits.length - bits.count true = bits.count false := by
    rw [← List.count_true_add_count_false bits, Nat.add_sub_cancel_left]
  rw [pulseEncode, totalDuration_append, totalDuration_append, leadCode_duration, bursts_duration,
    endOfFrame_duration, hzeros]
  ring

/-- The frame's duration in REF, `T_ONE` left free. -/
theorem pulseEncode_device_duration (bits : List Bit) : totalDuration (pulseEncode Config.device bits) =
    13496 + 546 * bits.length + 560 * (bits.length - bits.count true) + bits.count true * Config.tOneOpen + 546 := by
  have hgap : Config.device.tLeadGap = 4500 := rfl
  have hzero : Config.device.tZero = 560 := rfl
  rw [pulseEncode_duration, nLead_device, mBit_device, carrierPeriod_device, device_oneGap, hgap, hzero]
  ring

/-- Settles O53: each segment's duration, added up over the frame. -/
theorem timelineDurationsAddUp : Obligations.TimelineDurationsAddUp := by
  refine ⟨?_, pulseEncode_device_duration⟩
  rintro c bits p n m rfl hp rfl rfl
  have hn := nLead_eq_div hp
  have hm := mBit_eq_div hp
  rw [← hn, ← hm]
  exact ⟨leadCode_duration c, burst_duration c, endOfFrame_duration c, pulseEncode_duration c bits⟩

end Sys2Proof.Machine
end

section
/-! PROOFS. Which configurations have an initial state (O59). -/

namespace Sys2Proof.Machine

/-- An initial state is the reset state, and only an accepted configuration has it. -/
theorem initialState_eq_some_iff (c : Config) (s : State) :
    initialState c = some s ↔ s = State.resetOf c ∧ configOk c = true := by
  rw [initialState]
  cases configOk c with
  | true => simp [eq_comm]
  | false => simp

theorem fieldsOk_iff (c : Config) : fieldsOk c = true ↔
    ∀ f ∈ [c.fPower, c.fTemp, c.fMirror], f.first ≤ f.last ∧ f.last < c.wordLen := by
  simp [fieldsOk, fieldInside, and_assoc]

theorem powerLiteralsOk_iff (c : Config) : powerLiteralsOk c = true ↔
    c.patOn.length = c.fPower.width ∧ c.patOff.length = c.fPower.width := by
  simp [powerLiteralsOk]

theorem tempLiteralsOk_iff (c : Config) : tempLiteralsOk c = true ↔
    c.patTempMax.length = c.fTemp.width ∧ c.patTempMin.length = c.fTemp.width := by
  simp [tempLiteralsOk]

/-- The bound by `VAL_W` adds nothing to the one by `IDX_W`. -/
theorem wordLenOk_iff (c : Config) : wordLenOk c = true ↔ c.wordLen ≤ 63 := by
  simp only [wordLenOk, Bool.and_eq_true, decide_eq_true_eq]
  omega

theorem tOneGiven_iff (c : Config) : tOneGiven c = true ↔ ∃ t, c.tOne = some t := Option.isSome_iff_exists

theorem durationsFit_iff (c : Config) : durationsFit c = true ↔
    ∀ w, c.durW = some w → ∀ d ∈ [c.tHigh, c.tLow, c.tLeadGap, c.tZero, c.oneGap], d < 2 ^ w := by
  unfold durationsFit
  cases c.durW <;> simp [and_assoc]

theorem maxEncodeBitsOk_iff (c : Config) : maxEncodeBitsOk c = true ↔ c.maxEncodeBits ≤ 2 ^ 19 - 1 := by
  rw [maxEncodeBitsOk, decide_eq_true_eq]
  omega

theorem configOk_iff (c : Config) : configOk c = true ↔
    1 ≤ c.tHigh + c.tLow ∧ c.baseline.length = c.wordLen ∧
    (∀ f ∈ [c.fPower, c.fTemp, c.fMirror], f.first ≤ f.last ∧ f.last < c.wordLen) ∧
    (c.patOn.length = c.fPower.width ∧ c.patOff.length = c.fPower.width) ∧
    (c.patTempMax.length = c.fTemp.width ∧ c.patTempMin.length = c.fTemp.width) ∧
    c.wordLen ≤ 63 ∧ (∃ t, c.tOne = some t) ∧
    (∀ w, c.durW = some w → ∀ d ∈ [c.tHigh, c.tLow, c.tLeadGap, c.tZero, c.oneGap], d < 2 ^ w) ∧
    c.maxEncodeBits ≤ 2 ^ 19 - 1 := by
  rw [← fieldsOk_iff, ← powerLiteralsOk_iff, ← tempLiteralsOk_iff, ← wordLenOk_iff, ← tOneGiven_iff,
    ← durationsFit_iff, ← maxEncodeBitsOk_iff]
  simp only [configOk, carrierPeriodOk, baselineOk, Bool.and_eq_true, decide_eq_true_eq, beq_iff_eq, and_assoc]

theorem configOk_ref_tOne (t : Nat) : configOk { Config.ref with tOne := some t } = true := by
  simp [configOk_iff, Config.ref, Field.width]

/-- Settles O59: `configOk` is the listed conditions one by one, and REF misses only `T_ONE`. -/
theorem refusedConfigurationsHaveNoState : Obligations.RefusedConfigurationsHaveNoState := by
  refine ⟨fun c s => ?_, ?_, fun t => ?_, ?_⟩
  · rw [initialState_eq_some_iff, configOk_iff]
  · rfl
  · exact (initialState_eq_some_iff _ _).2 ⟨rfl, configOk_ref_tOne t⟩
  · exact (initialState_eq_some_iff _ _).2 ⟨rfl, configOk_ref_tOne Config.tOneOpen⟩

end Sys2Proof.Machine
end

section
/-! PROOFS. The invariants of R30, at reset and after every step, and what they say of the port, the driver and the
STATUS word (O17, O20, O21, O31, O32). -/

namespace Sys2Proof.Machine

/-! ### What the invariants read -/

theorem Inv.with_turns {c : Config} {s : State} (h : Inv c s) (ts : List Turn) : Inv c { s with turns := ts } :=
  ⟨h.word, h.busy, h.cause, h.exclusive⟩

theorem Inv.with_port {c : Config} {s : State} (h : Inv c s) (cmds : List Command) : Inv c { s with port := cmds } :=
  ⟨h.word, h.busy, h.cause, h.exclusive⟩

/-- Where the port is open, no frame is pending (R30's BUSY clause). -/
theorem Inv.out_eq_none {c : Config} {s : State} (h : Inv c s) (ho : portOpen s = true) : s.out = none := by
  obtain ⟨-, hbusy⟩ := (portOpen_iff s).1 ho
  by_contra hout
  rw [h.busy.2 hout] at hbusy
  cases hbusy

/-! ### Every effect keeps them -/

/-- A block that is not BUSY and takes a fault meets the invariants: FAULTED and FCAUSE are set together. -/
theorem Inv.takeFault {c : Config} {s : State} (h : Inv c s) (ho : portOpen s = true) {cause : FaultCause}
    (hc : cause ≠ .none) : Inv c (takeFault cause s) where
  word := h.word
  busy := h.busy
  cause := ⟨fun _ => hc, fun _ => rfl⟩
  exclusive _ := ((portOpen_iff s).1 ho).2

theorem Inv.putFrame {c : Config} {s : State} (h : Inv c s) (ho : portOpen s = true) (t : List PulseItem) :
    Inv c (putFrame t s) where
  word := h.word
  busy := ⟨fun _ => Option.some_ne_none t, fun _ => rfl⟩
  cause := h.cause
  exclusive hf := by
    have hfree : s.status.faulted = false := ((portOpen_iff s).1 ho).1
    rw [putFrame_status, hfree] at hf
    cases hf

theorem Inv.deliverFrame {c : Config} {s : State} (h : Inv c s) (t : List PulseItem) : Inv c (deliverFrame t s) where
  word := h.word
  busy := ⟨fun hb => (nomatch hb), fun hn => absurd rfl hn⟩
  cause := h.cause
  exclusive _ := rfl

theorem Inv.respond {c : Config} {s : State} (h : Inv c s) (code : RespCode) (data : RespData) :
    Inv c (respond code data s) := ⟨h.word, h.busy, h.cause, h.exclusive⟩

theorem Inv.with_cw {c : Config} {s : State} (h : Inv c s) {cw : List Bit} (hl : cw.length = s.cw.length) :
    Inv c { s with cw := cw } :=
  ⟨(Memory.wf_iff ..).2 (hl.trans ((Memory.wf_iff ..).1 h.word)), h.busy, h.cause, h.exclusive⟩

/-- Where the baseline has the word's length, what reset leaves meets the invariants. -/
theorem inv_resetBlock {c : Config} (hb : c.baseline.length = c.wordLen) (s : State) : Inv c (resetBlock c s) where
  word := (Memory.wf_iff ..).2 hb
  busy := ⟨fun h => (nomatch h), fun h => absurd rfl h⟩
  cause := ⟨fun h => (nomatch h), fun h => absurd rfl h⟩
  exclusive _ := rfl

/-- An instruction that runs while the port is open keeps the invariants. -/
theorem Effect.inv {c : Config} {i : Instr} {s s' : State} (he : Effect c i s s') (h : Inv c s)
    (ho : portOpen s = true) : Inv c s' := by
  cases he with
  | rangeError => exact h.takeFault ho (by decide)
  | answer data => exact h.respond .ok data
  | invalid => exact h.respond .validationError .none
  | write cw _ hl => exact (h.with_cw hl).respond .ok .none
  | frame => exact (h.putFrame ho _).respond .ok .none

theorem TurnEffect.inv {c : Config} {t : Turn} {s s' : State} (hb : c.baseline.length = c.wordLen)
    (he : TurnEffect c t s s') (h : Inv c s) : Inv c s' := by
  cases he with
  | pass => exact h
  | illegal cmd rest r _ _ ho => exact (h.with_port rest).takeFault ho (by decide)
  | run cmd rest i _ _ _ ho _ _ hi => exact hi.inv (h.with_port rest) ho
  | deliver frame => exact h.deliverFrame frame
  | reset => exact inv_resetBlock hb s

theorem stepOn_inv {c : Config} {s s' : State} (hb : c.baseline.length = c.wordLen) (h : Inv c s)
    (hs : stepOn c s = .next s') : Inv c s' := by
  obtain ⟨t, ts, -, he⟩ := stepOn_eq_next hs
  exact he.inv hb (h.with_turns ts)

theorem baseline_length_of_configOk {c : Config} (hc : configOk c = true) : c.baseline.length = c.wordLen := by
  obtain ⟨-, hb, -⟩ := (configOk_iff c).1 hc
  exact hb

/-- Settles O20: each effect of a turn keeps the four invariants; the two that set FAULTED or BUSY happen only while
the port is open. -/
theorem stepKeepsTheInvariants : Obligations.StepKeepsTheInvariants := by
  refine ⟨fun c s s' hc h hs => stepOn_inv (baseline_length_of_configOk hc) h hs, fun s s' h hs => ?_⟩
  rw [step_eq_stepOn] at hs
  exact stepOn_inv device_baseline_length h hs

/-! ### At reset -/

/-- Settles O21: the reset state has the baseline, no fault, no frame and an empty response. -/
theorem resetMeetsTheInvariants : Obligations.ResetMeetsTheInvariants := by
  have hinv {c : Config} (hb : c.baseline.length = c.wordLen) : Inv c (State.resetOf c) :=
    inv_resetBlock hb (State.resetOf c)
  refine ⟨fun c hc => ⟨hinv (baseline_length_of_configOk hc), ?_, ⟨?_, ?_⟩, ?_⟩, configOk_ref_tOne _,
    hinv device_baseline_length⟩
  · intro t ht
    cases ht
  · intro v hv
    cases hv
  · intro hcode
    cases hcode
  · intro t ht
    cases ht

/-! ### The port, the driver and the STATUS word -/

/-- Settles O17: an open port is not BUSY, so there is no frame for the driver. -/
theorem commandAndAcceptNeverBothEnabled : Obligations.CommandAndAcceptNeverBothEnabled := by
  rintro c s h ⟨ho, hd⟩
  rw [driverEnabled, h.out_eq_none ho] at hd
  cases hd

theorem Status.word_eq_zero_iff (x : Status) :
    x.word = 0x00#8 ↔ x.busy = false ∧ x.faulted = false ∧ x.fcause = .none := by
  obtain ⟨busy, faulted, fcause⟩ := x
  cases busy <;> cases faulted <;> cases fcause <;> decide

/-- Settles O31: by R30 STATUS reads 0 exactly when no frame is pending and no fault is taken. -/
theorem successfulEndReadsZeroStatus : Obligations.SuccessfulEndReadsZeroStatus := by
  intro c s h
  have hbusy : s.status.busy = false ↔ s.out = none := by
    rw [← Bool.not_eq_true, h.busy, not_not]
  have hcause : s.status.faulted = false ↔ s.status.fcause = .none := by
    rw [← Bool.not_eq_true, h.cause, not_not]
  rw [Status.word_eq_zero_iff, hbusy, ← hcause, and_self]
  simp [successfulEnd, and_assoc]

/-- Where each field of STATUS stands in its word (R23). -/
theorem Status.word_fields (x : Status) : x.word.getLsbD 0 = x.busy ∧ x.word.getLsbD 1 = x.faulted ∧
    (x.word.extractLsb' 2 2).toNat = x.fcause.code ∧ x.word.extractLsb' 4 4 = 0#4 ∧ x.fcause.code ≠ 3 := by
  obtain ⟨busy, faulted, fcause⟩ := x
  cases busy <;> cases faulted <;> cases fcause <;> decide

/-- Settles O32: the fields one by one, and the two words a fault leaves in a block that is not BUSY. -/
theorem statusWordHasItsFields : Obligations.StatusWordHasItsFields := by
  refine ⟨Status.word_fields, ⟨rfl, rfl, rfl⟩, ⟨rfl, rfl⟩, fun s hb => ?_⟩
  rw [takeFault_status, takeFault_status, hb]
  decide

end Sys2Proof.Machine
end

section
/-! PROOFS. What a step changes: the turns, the response, the command word and the output buffer (O9, O11, O23, O27,
O28). -/

namespace Sys2Proof.Machine

/-! ### Which instruction a step runs -/

theorem acceptedInstr_eq_some {c : Config} {s : State} {ts : List Turn} {cmd : Command} {rest : List Command}
    {i : Instr} (ht : s.turns = .port :: ts) (hp : s.port = cmd :: rest) (ho : portOpen s = true)
    (hd : decodeOn c cmd = .ok i) : acceptedInstr c s = some i := by
  simp [acceptedInstr, ht, hp, ho, hd, Except.toOption]

/-- An open port runs the instruction the presented command decodes to (R66). -/
theorem portTurn_open {c : Config} (run : Instr → State → Outcome) {s : State} {cmd : Command} {rest : List Command}
    {i : Instr} (hp : s.port = cmd :: rest) (ho : portOpen s = true) (hd : decodeOn c cmd = .ok i) :
    portTurn c run s = run i { s with port := rest } := by
  simp [portTurn, hp, ho, acceptCommand, hd]

/-- Settles O9: the turn is the port's, the port is open, and the command decodes. -/
theorem stepRunsTheDecodedInstruction : Obligations.StepRunsTheDecodedInstruction := by
  intro s ts cmd rest i ht hp hf hb hd
  rw [step, stepWith, ht]
  exact portTurn_open exec (s := { s with turns := ts }) hp ((portOpen_iff _).2 ⟨hf, hb⟩) hd

/-! ### The turns -/

/-- An instruction leaves what is outside the block: the commands presented, the turns and what the driver has
received (R21, R22). -/
theorem Effect.environment {c : Config} {i : Instr} {s s' : State} (h : Effect c i s s') :
    s'.port = s.port ∧ s'.turns = s.turns ∧ s'.delivered = s.delivered := by
  cases h <;> exact ⟨rfl, rfl, rfl⟩

/-- No turn changes the turns still to come. -/
theorem TurnEffect.turns {c : Config} {t : Turn} {s s' : State} (h : TurnEffect c t s s') : s'.turns = s.turns := by
  cases h with
  | run _ _ _ _ _ _ _ _ _ hi =>
    obtain ⟨-, hturns, -⟩ := hi.environment
    exact hturns
  | pass | illegal | deliver | reset => rfl

/-- Settles O11: a turn leads to a next state (`stepOn_cons`), and a port with nothing presented lets it pass. -/
theorem everyTurnLeadsToANextState : Obligations.EveryTurnLeadsToANextState := by
  refine fun s => ⟨fun ht => ?_, fun t ts ht => ?_, fun ts ht hp => ?_⟩
  · rw [step, stepWith, ht]
  · refine ⟨_, (step_eq_stepOn s).trans (stepOn_cons _ s t ts ht), ?_⟩
    exact (advance_effect _ t { s with turns := ts }).turns
  · simp [step, stepWith, ht, runTurn, portTurn, hp]

/-! ### The response -/

theorem Effect.respLegal {c : Config} {i : Instr} {s s' : State} (he : Effect c i s s') (h : RespLegal c s) :
    RespLegal c s' := by
  cases he with
  | rangeError => exact h
  | answer data hlt => exact ⟨hlt, fun hcode => nomatch hcode⟩
  | invalid | write | frame => exact ⟨fun v hv => (nomatch hv), fun _ => rfl⟩

theorem TurnEffect.respLegal {c : Config} {t : Turn} {s s' : State} (he : TurnEffect c t s s') (h : RespLegal c s) :
    RespLegal c s' := by
  cases he with
  | run cmd rest i _ _ _ _ _ _ hi => exact hi.respLegal h
  | reset => exact ⟨fun v hv => (nomatch hv), fun _ => rfl⟩
  | pass | illegal | deliver => exact h

/-- Settles O23: only an instruction's answer and reset write RESP, and each writes a legal value. -/
theorem stepKeepsRespLegal : Obligations.StepKeepsRespLegal := by
  intro c s s' h hs
  obtain ⟨t, ts, -, he⟩ := stepOn_eq_next hs
  exact he.respLegal h

/-! ### The command word -/

theorem writesWord_iff (op : Op) :
    writesWord op = true ↔ op ∈ [Op.writeField, .replaceRange, .setPower, .incTemp, .decTemp] := by
  cases op <;> decide

/-- An instruction that is none of the five writers leaves the word. -/
theorem Effect.cw_eq {c : Config} {i : Instr} {s s' : State} (h : Effect c i s s') (hi : writesWord i.op = false) :
    s'.cw = s.cw := by
  cases h with
  | write cw hw => rw [hi] at hw; cases hw
  | rangeError | answer | invalid | frame => rfl

/-- Settles O27: of a turn's effects only reset and a writing instruction touch CW. -/
theorem onlyWordCommandsChangeTheWord : Obligations.OnlyWordCommandsChangeTheWord := by
  intro c s s' hs hne
  obtain ⟨t, ts, ht, he⟩ := stepOn_eq_next hs
  cases he with
  | reset hr => exact .inl (by rw [ht, hr]; rfl)
  | run cmd rest i _ hport hp ho hd _ hi =>
    refine .inr ⟨i, acceptedInstr_eq_some (hport ▸ ht) hp ho hd, (writesWord_iff i.op).1 ?_⟩
    by_contra hw
    exact hne (hi.cw_eq (Bool.eq_false_of_not_eq_true hw))
  | pass | illegal | deliver => exact absurd rfl hne

/-! ### The output buffer -/

/-- An instruction other than TRANSMIT leaves OUT. -/
theorem Effect.out_eq {c : Config} {i : Instr} {s s' : State} (h : Effect c i s s') (hi : i ≠ .transmit) :
    s'.out = s.out := by
  cases h with
  | frame ht => exact absurd ht hi
  | rangeError | answer | invalid | write => rfl

/-- Settles O28: TRANSMIT is the one instruction that writes OUT, and none runs while a frame is pending. -/
theorem onlyTransmitFillsTheBuffer : Obligations.OnlyTransmitFillsTheBuffer := by
  intro c s s' h hs
  obtain ⟨t, ts, ht, he⟩ := stepOn_eq_next hs
  cases he with
  | pass => exact ⟨fun hn hsome => absurd hn hsome, fun _ hf => .inl hf⟩
  | illegal => exact ⟨fun hn hsome => absurd hn hsome, fun _ hf => .inl hf⟩
  | run cmd rest i _ hport hp ho hd _ hi =>
    have hnone : s.out = none := h.out_eq_none ho
    refine ⟨fun _ hsome => ?_, fun _ hf => absurd (hnone.symm.trans hf) (by simp)⟩
    have hi' : i = .transmit := by
      by_contra hne
      exact hsome ((hi.out_eq hne).trans hnone)
    exact hi' ▸ acceptedInstr_eq_some (hport ▸ ht) hp ho hd
  | deliver _ hdriver =>
    have hturn : s.turns.head? = some .driver := by rw [ht, hdriver]; rfl
    exact ⟨fun _ hsome => absurd rfl hsome, fun _ _ => .inr ⟨rfl, .inl hturn⟩⟩
  | reset hr =>
    have hturn : s.turns.head? = some .reset := by rw [ht, hr]; rfl
    exact ⟨fun _ hsome => absurd rfl hsome, fun _ _ => .inr ⟨rfl, .inr hturn⟩⟩

end Sys2Proof.Machine
end

section
/-! PROOFS. TEMP stays in its range (O25, O60). -/

namespace Sys2Proof.Machine

/-! ### A field under the operations -/

theorem fieldVal_congr (f : Field) {s t : State} (h : s.cw = t.cw) : fieldVal f s = fieldVal f t := by
  simp only [fieldVal, fieldBits, h]

/-- A write that meets none of a field's cells leaves its value. -/
theorem fieldVal_writeBits_disjoint (f : Field) (a : Nat) (l : List Bit) (s : State) (hf : f.first ≤ f.last)
    (h : f.last < a ∨ a + l.length ≤ f.first) : fieldVal f (writeBits a l s) = fieldVal f s := by
  simp only [fieldVal, fieldBits, writeBits_cw]
  rw [memRead_memWrite_disjoint]
  simp only [Field.width]
  omega

/-- A field holds a pattern of its width exactly when it holds the pattern's value. -/
theorem fieldBits_eq_iff {f : Field} {s : State} {p : List Bit} (hf : f.first ≤ f.last) (hl : f.last < s.cw.length)
    (hp : p.length = f.width) : fieldBits f s = p ↔ fieldVal f s = bitsVal p := by
  have hlen : (fieldBits f s).length = p.length :=
    (memRead_length _ _ _ (by simp only [Field.width]; omega)).trans hp.symm
  exact ⟨congrArg bitsVal, bitsVal_inj hlen⟩

/-- INC_TEMP's change adds 1 to TEMP: MIRROR shares no cell with it. -/
theorem fieldVal_raiseTemp {c : Config} {s : State} (hT : c.fTemp.first ≤ c.fTemp.last)
    (hl : c.fTemp.last < s.cw.length) (hM : c.fMirror.first ≤ c.fMirror.last)
    (hd : c.fMirror.last < c.fTemp.first ∨ c.fTemp.last < c.fMirror.first) :
    fieldVal c.fTemp (raiseTemp c s) = (fieldVal c.fTemp s + 1) % 2 ^ c.fTemp.width := by
  rw [raiseTemp, fieldVal_setField_other _ _ _ _ hM hT hd, fieldVal_setField _ _ _ hT hl]

/-- DEC_TEMP's change takes 1 from TEMP. -/
theorem fieldVal_lowerTemp {c : Config} {s : State} (hT : c.fTemp.first ≤ c.fTemp.last)
    (hl : c.fTemp.last < s.cw.length) (hM : c.fMirror.first ≤ c.fMirror.last)
    (hd : c.fMirror.last < c.fTemp.first ∨ c.fTemp.last < c.fMirror.first) :
    fieldVal c.fTemp (lowerTemp c s) = (fieldVal c.fTemp s - 1) % 2 ^ c.fTemp.width := by
  rw [lowerTemp, fieldVal_setField_other _ _ _ _ hM hT hd, fieldVal_setField _ _ _ hT hl]

/-! ### The device's TEMP -/

/-- The word has its 44 cells and TEMP is at most 11. -/
structure TempInRange (s : State) : Prop where
  word : s.cw.length = 44
  temp : fieldVal Config.device.fTemp s ≤ 11

theorem TempInRange.last_lt {s : State} (h : TempInRange s) : Config.device.fTemp.last < s.cw.length := by
  simp [h.word]

theorem TempInRange.congr {s t : State} (h : TempInRange s) (hcw : t.cw = s.cw) : TempInRange t :=
  ⟨hcw ▸ h.word, fieldVal_congr _ hcw ▸ h.temp⟩

theorem tempInRange_of_baseline {s : State} (hs : s.cw = Config.device.baseline) : TempInRange s :=
  TempInRange.congr (s := State.reset) ⟨by decide, by decide⟩ hs

/-- A mutator leaves TEMP at its limit's pattern where it finds it there, and else as its change leaves it. -/
theorem TempInRange.guarded {s : State} (h : TempInRange s) {p : List Bit} (hp : p.length = 4) (t : State) :
    fieldVal Config.device.fTemp (respond .ok .none (if fieldBits Config.device.fTemp s = p then s else t)) =
      if fieldVal Config.device.fTemp s = bitsVal p then bitsVal p else fieldVal Config.device.fTemp t := by
  have hguard := fieldBits_eq_iff (f := Config.device.fTemp) (by decide) h.last_lt hp
  rw [fieldVal_congr _ (respond_cw ..), ← if_congr hguard rfl rfl]
  split
  · next hbits => exact hguard.1 hbits
  · rfl

/-- INC_TEMP adds 1 and stops at 11 (R102). -/
theorem TempInRange.incTemp {s : State} (h : TempInRange s) : ∃ t, exec .incTemp s = .next t ∧
    fieldVal Config.device.fTemp t =
      if fieldVal Config.device.fTemp s = 11 then 11 else fieldVal Config.device.fTemp s + 1 := by
  have ht := h.temp
  have hsum : fieldVal Config.device.fTemp (raiseTemp Config.device s) = fieldVal Config.device.fTemp s + 1 :=
    (fieldVal_raiseTemp (by decide) h.last_lt (by decide) (by decide)).trans
      (Nat.mod_eq_of_lt (show _ < 16 by omega))
  exact ⟨_, rfl, hsum ▸ h.guarded (p := Config.device.patTempMax) rfl _⟩

/-- DEC_TEMP takes 1 and stops at 0 (R103). -/
theorem TempInRange.decTemp {s : State} (h : TempInRange s) : ∃ t, exec .decTemp s = .next t ∧
    fieldVal Config.device.fTemp t =
      if fieldVal Config.device.fTemp s = 0 then 0 else fieldVal Config.device.fTemp s - 1 := by
  have ht := h.temp
  have hdiff : fieldVal Config.device.fTemp (lowerTemp Config.device s) = fieldVal Config.device.fTemp s - 1 :=
    (fieldVal_lowerTemp (by decide) h.last_lt (by decide) (by decide)).trans
      (Nat.mod_eq_of_lt (show _ < 16 by omega))
  exact ⟨_, rfl, hdiff ▸ h.guarded (p := Config.device.patTempMin) rfl _⟩

/-! ### Every instruction that writes TEMP only through the mutators keeps it -/

/-- WRITE_FIELD outside TEMP's indices leaves TEMP. -/
theorem writeField_temp {s s' : State} {first last value : Nat}
    (hi : ¬ writesDirectly Config.device.fTemp (.writeField first last value))
    (he : exec (.writeField first last value) s = .next s') :
    fieldVal Config.device.fTemp s' = fieldVal Config.device.fTemp s := by
  simp only [exec, execWriteField, writeFieldOn] at he
  split at he
  · cases he
    exact fieldVal_congr _ rfl
  · next hr =>
    cases he
    obtain ⟨hle, -⟩ := (fieldOutOfRange_eq_false_iff ..).1 (Bool.eq_false_of_not_eq_true hr)
    simp only [writesDirectly, device_fTemp] at hi
    refine fieldVal_writeBits_disjoint _ _ _ s (by decide) ?_
    simp only [bitsBE_length, device_fTemp]
    omega

/-- REPLACE_RANGE outside TEMP's indices leaves TEMP; with `last < first` the pattern it writes is empty. -/
theorem replaceRange_temp {s s' : State} {first last : Nat} {p : List Bit}
    (hi : ¬ writesDirectly Config.device.fTemp (.replaceRange first last p))
    (he : exec (.replaceRange first last p) s = .next s') :
    fieldVal Config.device.fTemp s' = fieldVal Config.device.fTemp s := by
  simp only [exec, execReplaceRange, replaceRangeOn] at he
  split at he
  · cases he
    exact fieldVal_congr _ rfl
  · next hr =>
    cases he
    obtain ⟨-, hlen⟩ := (replaceInvalid_eq_false_iff ..).1 (Bool.eq_false_of_not_eq_true hr)
    simp only [writesDirectly, device_fTemp] at hi
    rcases Nat.lt_or_ge last first with hlt | hle
    · have hp : p = [] := List.length_eq_zero_iff.1 (by omega)
      exact fieldVal_congr _ (by rw [respond_cw, writeBits_cw, hp, memWrite_nil])
    · refine fieldVal_writeBits_disjoint _ _ _ s (by decide) ?_
      simp only [device_fTemp]
      omega

/-- SET_POWER writes four cells from index 4. -/
theorem setPower_temp {s s' : State} {on : Bit} (he : exec (.setPower on) s = .next s') :
    fieldVal Config.device.fTemp s' = fieldVal Config.device.fTemp s := by
  cases he
  refine fieldVal_writeBits_disjoint _ _ _ s (by decide) (.inr ?_)
  cases on <;> decide

/-- What the device's instruction leads to is one of its effects. -/
theorem exec_effect {i : Instr} {s s' : State} (h : exec i s = .next s') : Effect Config.device i s s' := by
  obtain ⟨t, ht, he⟩ := execOn_effect Config.device i s
  rw [exec_eq_execOn, ht] at h
  cases h
  exact he

/-- An accepted instruction keeps TEMP's range unless it writes TEMP's indices directly (R105). -/
theorem TempInRange.exec {i : Instr} {s s' : State} (h : TempInRange s)
    (hi : ¬ writesDirectly Config.device.fTemp i) (he : exec i s = .next s') : TempInRange s' := by
  have hE := exec_effect he
  refine ⟨(device_wf_iff _).1 (hE.wf ((device_wf_iff _).2 h.word)), ?_⟩
  cases i with
  | writeField => exact (writeField_temp hi he).trans_le h.temp
  | replaceRange => exact (replaceRange_temp hi he).trans_le h.temp
  | setPower => exact (setPower_temp he).trans_le h.temp
  | incTemp =>
    obtain ⟨t, hexec, hval⟩ := h.incTemp
    have ht := h.temp
    cases hexec.symm.trans he
    rw [hval]
    split <;> omega
  | decTemp =>
    obtain ⟨t, hexec, hval⟩ := h.decTemp
    have ht := h.temp
    cases hexec.symm.trans he
    rw [hval]
    split <;> omega
  | readField | equalsRange | encode | transmit => exact (fieldVal_congr _ (hE.cw_eq rfl)).trans_le h.temp

theorem TempInRange.step {s s' : State} (h : TempInRange s)
    (hi : ∀ i, acceptedInstr Config.device s = some i → ¬ writesDirectly Config.device.fTemp i)
    (hs : step s = .next s') : TempInRange s' := by
  rw [step_eq_stepOn] at hs
  obtain ⟨t, ts, ht, he⟩ := stepOn_eq_next hs
  cases he with
  | run cmd rest i _ hport hp ho hd hx =>
    have hacc := hi i (acceptedInstr_eq_some (hport ▸ ht) hp ho hd)
    have hbefore : TempInRange { s with turns := ts, port := rest } := h.congr rfl
    exact hbefore.exec hacc ((exec_eq_execOn ..).trans hx)
  | reset => exact tempInRange_of_baseline rfl
  | pass | illegal | deliver => exact h.congr rfl

/-- Settles O60: the word's length and TEMP's bound are kept together. -/
theorem stepKeepsTheTemperatureRange : Obligations.StepKeepsTheTemperatureRange := by
  have hreset : TempInRange State.reset := tempInRange_of_baseline rfl
  refine ⟨fun s s' hw ht hi hs => ?_, (device_wf_iff _).2 hreset.word, hreset.temp⟩
  obtain ⟨hw', ht'⟩ := TempInRange.step ⟨(device_wf_iff _).1 hw, ht⟩ hi hs
  exact ⟨(device_wf_iff _).2 hw', ht'⟩

theorem tempInRange_of_reached {s : State} (h : ReachedWithoutTempWrite s) : TempInRange s := by
  induction h with
  | reset port turns => exact tempInRange_of_baseline rfl
  | step _ hi hs ih => exact ih.step hi hs

/-- Settles O25: every state so reached has TEMP in range, where the mutators stop at the limits. -/
theorem reachableTemperatureStaysInRange : Obligations.ReachableTemperatureStaysInRange := by
  refine ⟨by decide, fun s hs => ?_⟩
  have h := tempInRange_of_reached hs
  exact ⟨h.temp, h.incTemp, h.decTemp⟩

end Sys2Proof.Machine
end

section
/-! PROOFS. What an instruction reads (O57, O58). -/

namespace Sys2Proof.Machine

/-- The same block with other commands presented, other turns to come and other frames received. -/
def State.withEnvironment (port : List Command) (turns : List Turn) (delivered : List (List PulseItem)) (s : State) :
    State := { s with port := port, turns := turns, delivered := delivered }

/-- An outcome with its next state, if any, changed by `f`. -/
def mapNext (f : State → State) : Outcome → Outcome
  | .next s => .next (f s)
  | .fault r => .fault r
  | .refused r => .refused r

section
variable (port : List Command) (turns : List Turn) (delivered : List (List PulseItem))

/-- An instruction does to the block what it does with another environment: every check and every value written is
read from CW and the operands. -/
theorem execOn_withEnvironment (c : Config) (i : Instr) (s : State) :
    execOn c i (s.withEnvironment port turns delivered) =
      mapNext (State.withEnvironment port turns delivered) (execOn c i s) := by
  cases i with
  | readField first last =>
    simp only [execOn, readFieldOn]
    split <;> rfl
  | writeField first last value =>
    simp only [execOn, writeFieldOn]
    split <;> rfl
  | replaceRange first last pattern =>
    simp only [execOn, replaceRangeOn]
    split <;> rfl
  | equalsRange first last pattern =>
    simp only [execOn, equalsRangeOn]
    split
    · rfl
    · split <;> rfl
  | incTemp =>
    have hguard := apply_ite (State.withEnvironment port turns delivered) (fieldBits c.fTemp s = c.patTempMax) s
      (raiseTemp c s)
    exact congrArg (fun t => Host.Outcome.next (respond .ok .none t)) hguard.symm
  | decTemp =>
    have hguard := apply_ite (State.withEnvironment port turns delivered) (fieldBits c.fTemp s = c.patTempMin) s
      (lowerTemp c s)
    exact congrArg (fun t => Host.Outcome.next (respond .ok .none t)) hguard.symm
  | setPower | encode | transmit => rfl

end

/-- Settles O57: an instruction leaves its environment (`Effect.environment`) and reads none of it. -/
theorem commandsIgnoreTheEnvironment : Obligations.CommandsIgnoreTheEnvironment := by
  intro i s port turns delivered
  rw [exec_eq_execOn, exec_eq_execOn]
  obtain ⟨t, ht, he⟩ := execOn_effect Config.device i s
  obtain ⟨hport, hturns, hdelivered⟩ := he.environment
  exact ⟨t, ht, hport, hturns, hdelivered,
    (execOn_withEnvironment port turns delivered _ i s).trans (congrArg (mapNext _) ht)⟩

/-- Settles O58: ENCODE's timeline is computed from its bits, and only RESP is written. -/
theorem encodeIgnoresTheWord : Obligations.EncodeIgnoresTheWord := by
  refine fun bits s cw => ⟨_, rfl, rfl, fun s' t' h => ?_⟩
  cases h
  rfl

end Sys2Proof.Machine
end

section
/-! PROOFS. The command word as memory: the cells a command reads, writes and leaves, and the word of a pending frame
(O22, O26, O41). -/

namespace Sys2Proof.Machine

/-! ### The word while a frame is pending -/

/-- A turn other than reset's leaves the word of a BUSY block: the port is held. -/
theorem TurnEffect.cw_eq_of_busy {c : Config} {t : Turn} {s s' : State} (he : TurnEffect c t s s')
    (hb : s.status.busy = true) (ht : t ≠ .reset) : s'.cw = s.cw := by
  cases he with
  | run _ _ _ _ _ _ ho =>
    obtain ⟨-, hfree⟩ := (portOpen_iff s).1 ho
    rw [hb] at hfree
    cases hfree
  | reset hr => exact absurd hr ht
  | pass | illegal | deliver => rfl

theorem FrameOfWord.of_out_eq_none {c : Config} {s : State} (h : s.out = none) : FrameOfWord c s := by
  intro frame hframe
  rw [h] at hframe
  cases hframe

/-- An instruction that runs with no frame pending leaves none, or it is TRANSMIT and leaves the word's. -/
theorem Effect.frameOfWord {c : Config} {i : Instr} {s s' : State} (he : Effect c i s s') (hout : s.out = none) :
    FrameOfWord c s' := by
  cases he with
  | frame =>
    intro frame hframe
    cases hframe
    rfl
  | rangeError | answer | invalid | write => exact .of_out_eq_none hout

theorem TurnEffect.frameOfWord {c : Config} {t : Turn} {s s' : State} (he : TurnEffect c t s s') (hi : Inv c s)
    (h : FrameOfWord c s) : FrameOfWord c s' := by
  cases he with
  | run cmd rest i _ _ _ ho _ _ hx => exact hx.frameOfWord (hi.out_eq_none ho)
  | deliver | reset => exact .of_out_eq_none rfl
  | pass | illegal => exact h

/-- Settles O22: TRANSMIT encodes the whole word, and no instruction runs while its frame is pending. -/
theorem pendingFrameEncodesTheWord : Obligations.PendingFrameEncodesTheWord := by
  refine ⟨fun c s => ⟨_, rfl, rfl⟩, fun c s s' hb hs hne => ?_, fun c s s' hi h hs => ?_⟩
  · obtain ⟨t, ts, ht, he⟩ := stepOn_eq_next hs
    exact he.cw_eq_of_busy hb fun hr => hne (by rw [ht, hr]; rfl)
  · obtain ⟨t, ts, -, he⟩ := stepOn_eq_next hs
    exact he.frameOfWord (hi.with_turns ts) h

/-! ### The cells the mutators leave -/

/-- The index is none of the field's (R13). -/
def CellOutside (f : Field) (j : Nat) : Prop := j < f.first ∨ f.first + f.width ≤ j

/-- The index is in none of the three named fields (R42). -/
def UnnamedCell (c : Config) (j : Nat) : Prop :=
  CellOutside c.fPower j ∧ CellOutside c.fTemp j ∧ CellOutside c.fMirror j

theorem State.cell_congr {s t : State} (h : s.cw = t.cw) (j : Nat) : s.cell j = t.cell j := by
  simp only [State.cell, h]

theorem writeBits_cell_outside {a j : Nat} {l : List Bit} (s : State) (h : j < a ∨ a + l.length ≤ j) :
    (writeBits a l s).cell j = s.cell j := memWrite_outside s.cw a l j h

theorem setField_cell_outside {f : Field} {j : Nat} (v : Nat) (s : State) (h : CellOutside f j) :
    (setField f v s).cell j = s.cell j :=
  writeBits_cell_outside s (by rw [bitsBE_length]; exact h)

theorem raiseTemp_cell {c : Config} {j : Nat} (s : State) (hT : CellOutside c.fTemp j)
    (hM : CellOutside c.fMirror j) : (raiseTemp c s).cell j = s.cell j :=
  (setField_cell_outside _ _ hM).trans (setField_cell_outside _ s hT)

theorem lowerTemp_cell {c : Config} {j : Nat} (s : State) (hT : CellOutside c.fTemp j)
    (hM : CellOutside c.fMirror j) : (lowerTemp c s).cell j = s.cell j :=
  (setField_cell_outside _ _ hM).trans (setField_cell_outside _ s hT)

/-- SET_POWER writes the four cells of POWER only (R101). -/
theorem exec_setPower_cell {on : Bit} {s s' : State} {j : Nat} (hP : CellOutside Config.device.fPower j)
    (he : exec (.setPower on) s = .next s') : s'.cell j = s.cell j := by
  cases he
  refine writeBits_cell_outside s ?_
  cases on <;> exact hP

/-- INC_TEMP writes the cells of TEMP and MIRROR at most (R102). -/
theorem exec_incTemp_cell {s s' : State} {j : Nat} (hT : CellOutside Config.device.fTemp j)
    (hM : CellOutside Config.device.fMirror j) (he : exec .incTemp s = .next s') : s'.cell j = s.cell j := by
  cases he
  rw [State.cell_congr (respond_cw ..)]
  split
  · rfl
  · exact raiseTemp_cell s hT hM

/-- DEC_TEMP writes the cells of TEMP and MIRROR at most (R103). -/
theorem exec_decTemp_cell {s s' : State} {j : Nat} (hT : CellOutside Config.device.fTemp j)
    (hM : CellOutside Config.device.fMirror j) (he : exec .decTemp s = .next s') : s'.cell j = s.cell j := by
  cases he
  rw [State.cell_congr (respond_cw ..)]
  split
  · rfl
  · exact lowerTemp_cell s hT hM

/-- An instruction other than WRITE_FIELD and REPLACE_RANGE leaves the cells of no named field. -/
theorem exec_unnamedCell {i : Instr} {s s' : State} {j : Nat}
    (hj : UnnamedCell Config.device j)
    (hw : ∀ first last v, i ≠ .writeField first last v) (hr : ∀ first last p, i ≠ .replaceRange first last p)
    (he : exec i s = .next s') : s'.cell j = s.cell j := by
  obtain ⟨hP, hT, hM⟩ := hj
  cases i with
  | writeField first last v => exact absurd rfl (hw first last v)
  | replaceRange first last p => exact absurd rfl (hr first last p)
  | setPower => exact exec_setPower_cell hP he
  | incTemp => exact exec_incTemp_cell hT hM he
  | decTemp => exact exec_decTemp_cell hT hM he
  | readField | equalsRange | encode | transmit => exact State.cell_congr ((exec_effect he).cw_eq rfl) j

theorem unnamedCell_device {j : Nat} (hj : j ≤ 3 ∨ (8 ≤ j ∧ j ≤ 11) ∨ (16 ≤ j ∧ j ≤ 39)) :
    UnnamedCell Config.device j := by
  simp only [UnnamedCell, CellOutside, Field.width, device_fPower, device_fTemp, device_fMirror]
  omega

/-- Settles O26: of a turn's effects only a running instruction and reset touch CW, and the three mutators write
inside their fields. -/
theorem unnamedCellsKeepTheirBits : Obligations.UnnamedCellsKeepTheirBits := by
  intro s s' j hj hs hreset hw hr
  rw [step_eq_stepOn] at hs
  obtain ⟨t, ts, ht, he⟩ := stepOn_eq_next hs
  cases he with
  | run cmd rest i _ hport hp ho hd hx =>
    have hacc : acceptedInstr Config.device s = some i := acceptedInstr_eq_some (hport ▸ ht) hp ho hd
    rw [hacc] at hw hr
    exact exec_unnamedCell (s := { s with turns := ts, port := rest }) (unnamedCell_device hj)
      (fun first last v h => hw first last v (congrArg some h))
      (fun first last p h => hr first last p (congrArg some h)) ((exec_eq_execOn ..).trans hx)
  | reset hreset' => exact absurd (by rw [ht, hreset']; rfl) hreset
  | pass | illegal | deliver => rfl

/-! ### Reads and writes through ranges inside the word -/

theorem readFieldOn_inside {c : Config} {first last : Nat} (s : State) (h : first ≤ last) (hl : last < c.wordLen) :
    readFieldOn c first last s = .next (respond .ok (.nat (bitsVal (memRead s.cw first (last - first + 1)))) s) := by
  rw [readFieldOn, (fieldOutOfRange_eq_false_iff ..).2 ⟨h, hl⟩]
  rfl

theorem writeFieldOn_inside {c : Config} {first last : Nat} (value : Nat) (s : State) (h : first ≤ last)
    (hl : last < c.wordLen) : writeFieldOn c first last value s =
      .next (respond .ok .none (writeBits first (bitsBE value (last - first + 1)) s)) := by
  rw [writeFieldOn, (fieldOutOfRange_eq_false_iff ..).2 ⟨h, hl⟩]
  rfl

/-- What each cell holds after WRITE_FIELD: inside the range a bit of the value, `last` the least significant. -/
theorem writeBits_bitsBE_cell {first last : Nat} (value : Nat) (s : State) (h : first ≤ last)
    (hl : last < s.cw.length) (j : Nat) : (writeBits first (bitsBE value (last - first + 1)) s).cell j =
      if first ≤ j ∧ j ≤ last then some (value.testBit (last - j)) else s.cell j := by
  have hrange : (first ≤ j ∧ j < first + (last - first + 1) ∧ j < s.cw.length) ↔ first ≤ j ∧ j ≤ last := by omega
  rw [State.cell, writeBits_cw, memWrite_getElem?, bitsBE_length, if_congr hrange rfl rfl]
  split
  · have hbit : last - first + 1 - 1 - (j - first) = last - j := by omega
    rw [bitsBE_getElem? _ (by omega), hbit]
  · rfl

/-- Under the device WRITE_FIELD inside the word leads to a word of the same form whose cells are known (R82). -/
theorem exec_writeField_inside {first last : Nat} (value : Nat) {s : State}
    (hwf : Memory.wf Config.device s.cw = true) (h : first ≤ last) (hl : last < 44) :
    ∃ t, exec (.writeField first last value) s = .next t ∧ Memory.wf Config.device t.cw = true ∧
      ∀ j, t.cell j = if first ≤ j ∧ j ≤ last then some (value.testBit (last - j)) else s.cell j := by
  have hlen : last < s.cw.length := by rwa [(device_wf_iff _).1 hwf]
  exact ⟨_, writeFieldOn_inside (c := Config.device) value s h hl, (memWrite_wf ..).trans hwf,
    writeBits_bitsBE_cell value s h hlen⟩

theorem memRead_one {s : State} {a : Nat} {b : Bit} (h : s.cell a = some b) : memRead s.cw a 1 = [b] := by
  obtain ⟨ha, hb⟩ := List.getElem?_eq_some_iff.1 h
  rw [memRead, List.drop_eq_getElem_cons ha, hb]
  rfl

/-- The value of two adjacent ranges read as one (R43). -/
theorem bitsVal_memRead_append {cw : List Bit} {a m b : Nat} (ha : a ≤ m) (hm : m < b) (hb : b < cw.length) :
    bitsVal (memRead cw a (b - a + 1)) =
      bitsVal (memRead cw a (m - a + 1)) * 2 ^ (b - m) + bitsVal (memRead cw (m + 1) (b - (m + 1) + 1)) := by
  have hwidth : b - a + 1 = (m - a + 1) + (b - m) := by omega
  have hstart : a + (m - a + 1) = m + 1 := by omega
  have hrest : b - (m + 1) + 1 = b - m := by omega
  rw [hwidth, memRead_append, bitsVal_append, hstart, hrest, memRead_length _ _ _ (by omega)]

/-- Settles O41: reads are values of adjacent cells, and each write determines every cell from those before it. -/
theorem mixedWidthReadsAgree : Obligations.MixedWidthReadsAgree := by
  refine ⟨fun a s b hwf hcell => ?_, fun a m b s hwf ha hm hb => ?_, rfl, rfl, rfl,
    fun a b x first last y s hwf ha hb hf hl => ?_⟩
  · have ha : a < 44 := (device_wf_iff _).1 hwf ▸ (List.getElem?_eq_some_iff.1 hcell).1
    have hread := readFieldOn_inside (c := Config.device) s (Nat.le_refl a) ha
    have hval : bitsVal [b] = b.toNat := by simp
    rw [Nat.sub_self, memRead_one hcell, hval] at hread
    exact hread
  · have hlen : b < s.cw.length := by rwa [(device_wf_iff _).1 hwf]
    refine ⟨_, _, readFieldOn_inside (c := Config.device) s ha (by rw [device_wordLen]; omega),
      readFieldOn_inside (c := Config.device) s hm hb, ?_⟩
    rw [← bitsVal_memRead_append ha hm hlen]
    exact readFieldOn_inside (c := Config.device) s (by omega) hb
  · obtain ⟨t, ht, hwt, hcellt⟩ := exec_writeField_inside x hwf ha hb
    obtain ⟨u, hu, -, hcellu⟩ := exec_writeField_inside y hwt hf hl
    exact ⟨t, u, ht, hu, fun j => by rw [hcellu, hcellt]⟩

end Sys2Proof.Machine
end

section
/-! PROOFS. The opcode map and what a header says of its command (O1, O4, O5, O6, O7). -/

namespace Sys2Proof

/-! ### At most one row -/

theorem mem_opcodeRows_iff (r : Row) : r ∈ opcodeRows ↔ ∃ op, r = rowFor op := by
  rw [opcodeRows_eq, List.mem_map]
  constructor
  · rintro ⟨op, -, rfl⟩
    exact ⟨op, rfl⟩
  · rintro ⟨op, rfl⟩
    exact ⟨op, by cases op <;> decide, rfl⟩

/-- Settles O1: two rows that select a header put their conditions on its number, and these exclude each other. -/
theorem atMostOneRowMatchesAHeader : Obligations.AtMostOneRowMatchesAHeader := by
  refine ⟨rfl, fun r h => beq_iff_eq, fun h r hr r' hr' hs hs' => ?_⟩
  obtain ⟨op, rfl⟩ := (mem_opcodeRows_iff r).1 hr
  obtain ⟨op', rfl⟩ := (mem_opcodeRows_iff r').1 hr'
  rw [rowCondition_unique ((rowFor_selects_iff op h).1 hs) ((rowFor_selects_iff op' h).1 hs')]

/-! ### The total length -/

theorem commandLen_of_rowOf {h : Header} {r : Row} (hr : rowOf h = some r) :
    commandLen h = some (32 + operandLen r.format h) := by
  rw [commandLen, hr]
  rfl

theorem commandLen_encode {c : Config} {i : Instr} (hi : i.wellFormed c = true) :
    commandLen (encode i).header = some (32 + (encode i).data.len) := by
  obtain ⟨hrow, hlen, -⟩ := selectsItsRow i (Instr.wellFormed_device hi)
  rw [commandLen_of_rowOf hrow, hlen]

/-- Settles O5: the row gives the format, the format the operand's length. -/
theorem headerFixesTheTotalLength : Obligations.HeaderFixesTheTotalLength := by
  refine ⟨fun h r hr => ?_, fun i hi => commandLen_encode hi⟩
  rw [commandLen_of_rowOf hr]
  cases r.format <;> rfl

/-! ### The worked examples -/

theorem decode_of_encode_eq {i : Instr} {cmd : Command} (hi : i.wellFormed Config.device = true)
    (he : encode i = cmd) : decode cmd = .ok i :=
  he ▸ decodeInvertsEncode Config.device i hi

theorem Instr.wellFormed_writeField {c : Config} {first last value : Nat} (hf : first < 64) (hl : last < 64)
    (hv : value < 2 ^ 64) : (Instr.writeField first last value).wellFormed c = true := by
  simp only [Instr.wellFormed, indexFits, valueFits, hf, hl, hv, decide_true, Bool.and_self]

/-- Settles O6: each example is well formed and encodes to the command written; decoding then gives it back (O2). -/
theorem workedHeadersDecode : Obligations.WorkedHeadersDecode := by
  refine ⟨fun p hp => ?_, fun v hv => ?_⟩
  · obtain ⟨he, hi⟩ : encode p.1 = p.2 ∧ p.1.wellFormed Config.device = true := by
      revert p
      decide
    exact ⟨he, decode_of_encode_eq hi he⟩
  · have he : encode (.writeField 12 15 v) = ⟨0x00007982#32, ⟨64, v⟩⟩ := rfl
    exact ⟨he, decode_of_encode_eq (Instr.wellFormed_writeField (by decide) (by decide) hv) he⟩

/-- Settles O7: R71's table, row by row. -/
theorem pseudoInstructionsExpand : Obligations.PseudoInstructionsExpand :=
  ⟨rfl, rfl, rfl, rfl, rfl, rfl, rfl⟩

/-! ### The illegal commands -/

/-- The value of OP in a row's headers (R65). -/
def Op.code : Op → Nat
  | .readField => 1
  | .writeField => 2
  | .replaceRange => 3
  | .equalsRange => 4
  | .setPower => 5
  | .incTemp => 6
  | .decTemp => 7
  | .encode => 8
  | .transmit => 9

theorem Op.exists_code_eq {n : Nat} (hpos : n ≠ 0) (hlt : n < 10) : ∃ op : Op, n = op.code := by
  interval_cases n
  exacts [absurd rfl hpos, ⟨.readField, rfl⟩, ⟨.writeField, rfl⟩, ⟨.replaceRange, rfl⟩, ⟨.equalsRange, rfl⟩,
    ⟨.setPower, rfl⟩, ⟨.incTemp, rfl⟩, ⟨.decTemp, rfl⟩, ⟨.encode, rfl⟩, ⟨.transmit, rfl⟩]

theorem Op.code_injective {op op' : Op} (h : op.code = op'.code) : op = op' := by
  cases op <;> cases op' <;> trivial

/-- The header bits that a row's format does not use are 0 (R62). -/
def UnusedBitsZero (h : Header) : Op → Prop
  | .readField | .writeField => onField h = 0 ∧ lenField h = 0
  | .replaceRange | .equalsRange | .encode => onField h = 0
  | .setPower => countField h = 0
  | .incTemp | .decTemp | .transmit => onField h = 0 ∧ countField h = 0

/-- A row's condition on the header's number, field by field (R61, R65). -/
theorem rowCondition_iff_fields (h : Header) (op : Op) :
    rowCondition h op ↔ opField h = op.code ∧ rsvField h = 0 ∧ UnusedBitsZero h op := by
  have hlt := h.isLt
  rw [opField_eq, rsvField_eq]
  cases op <;> simp only [rowCondition, Op.code, UnusedBitsZero, onField_eq, lenField_eq, countField_eq] <;> omega

theorem operandLen_lt (f : Format) (h : Header) : operandLen f h < 2 ^ 19 := by
  cases f with
  | rp => exact (lenField_lt h).trans (by decide)
  | e => exact countField_lt h
  | n | p | r | rv => simp [operandLen]

/-- The legal commands, field by field; the device's `MAX_ENCODE_BITS` refuses no COUNT (R66). -/
theorem decode_ok_iff {cmd : Command} (hw : cmd.data.wellFormed = true) :
    (∃ i, decode cmd = .ok i) ↔ ∃ op : Op, opField cmd.header = op.code ∧ rsvField cmd.header = 0 ∧
      UnusedBitsZero cmd.header op ∧ cmd.data.len = operandLen (rowFor op).format cmd.header := by
  constructor
  · rintro ⟨i, hi⟩
    obtain ⟨op, hc, hlen, -⟩ := (decodeOn_eq_ok_iff _ _ _).1 hi
    obtain ⟨hop, hrsv, hunused⟩ := (rowCondition_iff_fields _ _).1 hc
    exact ⟨op, hop, hrsv, hunused, hlen⟩
  · rintro ⟨op, hop, hrsv, hunused, hlen⟩
    have hmax : cmd.data.len ≤ Config.device.maxEncodeBits := Nat.le_of_lt_succ (hlen ▸ operandLen_lt _ _)
    exact ⟨_, (decodeOn_eq_ok_iff _ _ _).2
      ⟨op, (rowCondition_iff_fields _ _).2 ⟨hop, hrsv, hunused⟩, hlen, hw, fun _ => hmax, rfl⟩⟩

/-- Where OP is a row's, only that row can make the command legal. -/
theorem decode_ok_iff_of_op {cmd : Command} {op : Op} (hw : cmd.data.wellFormed = true)
    (hop : opField cmd.header = op.code) :
    (∃ i, decode cmd = .ok i) ↔ rsvField cmd.header = 0 ∧ UnusedBitsZero cmd.header op ∧
      cmd.data.len = operandLen (rowFor op).format cmd.header := by
  rw [decode_ok_iff hw]
  constructor
  · rintro ⟨op', hop', hlegal⟩
    exact Op.code_injective (hop.symm.trans hop') ▸ hlegal
  · exact fun hlegal => ⟨op, hop, hlegal⟩

theorem decode_error_iff (cmd : Command) : (∃ r, decode cmd = .error r) ↔ ¬ ∃ i, decode cmd = .ok i := by
  cases decode cmd <;> simp

/-- Settles O4: a command is legal when its OP is some row's and the other fields and the operand are as that row's
format asks; row by row, the listed ways are the negation of that. -/
theorem illegalCommandsAreExactlyTheListed : Obligations.IllegalCommandsAreExactlyTheListed := by
  intro cmd hw
  rw [decode_error_iff]
  by_cases hres : opField cmd.header = 0 ∨ 10 ≤ opField cmd.header
  · refine iff_of_true ?_ (.inl hres)
    rw [decode_ok_iff hw]
    rintro ⟨op, hop, -⟩
    cases op <;> simp [hop, Op.code] at hres
  · obtain ⟨op, hop⟩ := Op.exists_code_eq (n := opField cmd.header) (by omega) (by omega)
    rw [decode_ok_iff_of_op hw hop, hop]
    cases op <;> simp [Op.code, UnusedBitsZero, rowFor, operandLen] <;> tauto

end Sys2Proof
end

section
/-! PROOFS. The assembler reads what the printer writes (O8). -/

namespace Sys2Proof

/-! ### The printed line -/

theorem Op.mnemonic_plain (op : Op) : ∀ ch ∈ op.mnemonic.toList, Plain ch := by
  cases op <;> simp [Op.mnemonic, Plain]

theorem Op.mnemonic_ne_nil (op : Op) : op.mnemonic.toList ≠ [] := by cases op <;> decide

theorem Op.find_mnemonic (op : Op) : Op.all.find? (fun o => o.mnemonic.toList = op.mnemonic.toList) = some op := by
  cases op <;> decide

/-- An operand is written as a number in decimal or as a quoted digit string (R70). -/
theorem Instr.mem_operandTexts {i : Instr} {x : List Char} (hx : x ∈ i.operandTexts) :
    (∃ n, x = decimalText n) ∨ ∃ l, x = bitsText l := by
  revert x
  cases i <;> simp [Instr.operandTexts]

theorem Instr.operandTexts_plain {i : Instr} {x : List Char} (hx : x ∈ i.operandTexts) : ∀ ch ∈ x, Plain ch := by
  obtain ⟨n, rfl⟩ | ⟨l, rfl⟩ := Instr.mem_operandTexts hx
  · exact fun ch hch => (decimalText_plain n ch hch).1
  · exact bitsText_plain l

theorem Instr.operandTexts_ne_nil {i : Instr} {x : List Char} (hx : x ∈ i.operandTexts) : x ≠ [] := by
  obtain ⟨n, rfl⟩ | ⟨l, rfl⟩ := Instr.mem_operandTexts hx
  · exact decimalText_ne_nil n
  · exact List.cons_ne_nil _ _

/-- Operands joined by commas begin and end with a character of an operand. -/
theorem joinOperands_ends {ops : List (List Char)} (hne : ops ≠ []) (hx : ∀ x ∈ ops, x ≠ [])
    (h : ∀ x ∈ ops, ∀ ch ∈ x, Plain ch) : joinOperands ops ≠ [] ∧ (joinOperands ops).head? ≠ some ' ' ∧
      (joinOperands ops).getLast? ≠ some ' ' := by
  induction ops with
  | nil => exact absurd rfl hne
  | cons x l ih =>
    have hxne := hx x List.mem_cons_self
    obtain ⟨hhead, hlast⟩ := Plain.ends (h x List.mem_cons_self)
    cases l with
    | nil => exact ⟨hxne, hhead, hlast⟩
    | cons y l =>
      obtain ⟨hjne, -, hjlast⟩ := ih (List.cons_ne_nil _ _) (fun z hz => hx z (List.mem_cons_of_mem _ hz))
        (fun z hz => h z (List.mem_cons_of_mem _ hz))
      refine ⟨by simp [joinOperands], ?_, ?_⟩
      · rwa [joinOperands, List.append_assoc, List.head?_append_of_ne_nil _ hxne]
      · rwa [joinOperands, List.getLast?_append_of_ne_nil _ hjne]

/-! ### The line taken apart -/

/-- A name, then a space, then text that begins and ends with no space: nothing is trimmed, and the line comes apart
at that space. -/
theorem name_space_rest_splits {name rest : List Char} (hne : name ≠ []) (hname : ∀ ch ∈ name, Plain ch)
    (hrest : rest ≠ []) (hhead : rest.head? ≠ some ' ') (hlast : rest.getLast? ≠ some ' ') :
    trimText (name ++ ' ' :: rest) = name ++ ' ' :: rest ∧
      (name ++ ' ' :: rest).takeWhile (· ≠ ' ') = name ∧
      trimText ((name ++ ' ' :: rest).dropWhile (· ≠ ' ')) = rest := by
  have hspace : ∀ ch ∈ name, decide (ch ≠ ' ') = true := fun ch hch => decide_eq_true (hname ch hch).1
  refine ⟨trimText_of_ends ?_ ?_, ?_, ?_⟩
  · rw [List.head?_append_of_ne_nil _ hne]
    exact (Plain.ends hname).1
  · rwa [List.getLast?_append_of_ne_nil _ (List.cons_ne_nil _ _), List.getLast?_cons_of_ne_nil hrest]
  · rw [List.takeWhile_append_of_pos hspace]
    simp
  · rw [List.dropWhile_append_of_pos hspace]
    simp [trimText_of_ends hhead hlast]

/-- A name alone is the whole line. -/
theorem name_alone_splits {name : List Char} (hname : ∀ ch ∈ name, Plain ch) :
    trimText name = name ∧ name.takeWhile (· ≠ ' ') = name ∧ name.dropWhile (· ≠ ' ') = [] := by
  have hspace : ∀ ch ∈ name, decide (ch ≠ ' ') = true := fun ch hch => decide_eq_true (hname ch hch).1
  exact ⟨trimText_of_ends (Plain.ends hname).1 (Plain.ends hname).2, List.takeWhile_eq_self_iff.2 hspace,
    List.dropWhile_eq_nil_iff.2 hspace⟩

/-- The command a line of a row's name and operands stands for. -/
theorem assembleLine_command (c : Config) {line rest : List Char} {i : Instr}
    (hname : (trimText line).takeWhile (· ≠ ' ') = i.op.mnemonic.toList)
    (hrest : trimText ((trimText line).dropWhile (· ≠ ' ')) = rest)
    (hops : parseOperands i.op (if rest = [] then [] else (splitCommas rest).map trimText) = some i)
    (hi : i.wellFormed c = true) : assembleLine c line = some [i] := by
  simp only [assembleLine, hname, hrest, Op.find_mnemonic, hops, hi, if_true]

/-! ### The operands -/

theorem parseOn_decimalText (on : Bit) : parseOn (decimalText on.toNat) = some on := by
  rw [parseOn, parseNumber_decimalText]
  cases on <;> rfl

/-- The operands' texts are read as the instruction. -/
theorem parseOperands_operandTexts (i : Instr) : parseOperands i.op i.operandTexts = some i := by
  cases i <;>
    simp [parseOperands, Instr.op, Instr.operandTexts, parseNumber_decimalText, parseBits_bitsText,
      parseOn_decimalText]

/-- Settles O8: the line comes apart into the row's name and its operands, and each operand is read back. -/
theorem assemblerReadsInstructionText : Obligations.AssemblerReadsInstructionText := by
  intro c i hi
  have hname := Op.mnemonic_plain i.op
  have hparse := parseOperands_operandTexts i
  unfold Instr.text
  split
  case h_1 hnone =>
    obtain ⟨htrim, htake, hdrop⟩ := name_alone_splits hname
    rw [hnone] at hparse
    exact assembleLine_command c (rest := []) (by rw [htrim, htake]) (by rw [htrim, hdrop]; rfl) hparse hi
  case h_2 hne =>
    obtain ⟨hjoin, hhead, hlast⟩ := joinOperands_ends hne (fun _ => Instr.operandTexts_ne_nil)
      (fun _ => Instr.operandTexts_plain)
    obtain ⟨htrim, htake, hrest⟩ := name_space_rest_splits (Op.mnemonic_ne_nil i.op) hname hjoin hhead hlast
    have hops := splitCommas_joinOperands _ hne (fun _ => Instr.operandTexts_plain)
    rw [List.append_assoc, List.singleton_append]
    exact assembleLine_command c (by rw [htrim, htake]) (by rw [htrim, hrest]) (by rw [if_neg hjoin, hops, hparse]) hi

end Sys2Proof
end

section
/-! PROOFS. A placed command runs next, and what taking a fault does (O10, O14). -/

namespace Sys2Proof.Machine

/-! ### The placed command -/

/-- A command whose header names its operand's length is read back from its bits laid out as one number. -/
theorem commandOfWord_number {cmd : Command} (hlen : commandLen cmd.header = some (32 + cmd.data.len))
    (hw : cmd.data.wellFormed = true) :
    commandOfWord (32 + cmd.data.len) (cmd.header.toNat + 2 ^ 32 * cmd.data.val) = cmd := by
  have hh := cmd.header.isLt
  have hv := DataWord.val_lt hw
  have hfits : cmd.header.toNat + 2 ^ 32 * cmd.data.val < 2 ^ (32 + cmd.data.len) := by
    rw [Nat.pow_add]
    omega
  have hheader : BitVec.ofNat 32 (cmd.header.toNat + 2 ^ 32 * cmd.data.val) = cmd.header := by
    apply BitVec.eq_of_toNat_eq
    rw [BitVec.toNat_ofNat]
    omega
  have hval : (cmd.header.toNat + 2 ^ 32 * cmd.data.val) / 2 ^ 32 = cmd.data.val := by omega
  simp only [commandOfWord, Nat.mod_eq_of_lt hfits, hheader, hlen, hval, Option.getD_some, Nat.add_sub_cancel_left]

/-- Settles O10: the number stands for the instruction's command, which decodes to it (O2) and runs (O9). -/
theorem placedCommandRunsNext : Obligations.PlacedCommandRunsNext := by
  intro i s hi hf hb
  obtain ⟨-, -, hword⟩ := selectsItsRow i hi
  rw [State.withFetchWord, commandOfWord_number (commandLen_encode hi) hword]
  exact stepRunsTheDecodedInstruction _ s.turns (encode i) s.port i rfl rfl hf hb (decodeInvertsEncode _ i hi)

/-! ### Taking a fault -/

/-- An open port refuses an illegal command with the IllegalCommand fault (R66). -/
theorem portTurn_illegal {c : Config} (run : Instr → State → Outcome) {s : State} {cmd : Command}
    {rest : List Command} {r : Reject} (hp : s.port = cmd :: rest) (ho : portOpen s = true)
    (hd : decodeOn c cmd = .error r) :
    portTurn c run s = .next (takeFault .illegalCommand { s with port := rest }) := by
  simp [portTurn, hp, ho, acceptCommand, hd]

/-- A port that is not open lets its turn pass, whatever is presented (R137, R153). -/
theorem portTurn_closed (c : Config) (run : Instr → State → Outcome) {s : State} (ho : portOpen s = false) :
    portTurn c run s = .next s := by
  rw [portTurn, ho]
  split <;> rfl

theorem step_portClosed {s : State} {ts : List Turn} (ht : s.turns = .port :: ts) (ho : portOpen s = false) :
    step s = .next { s with turns := ts } := by
  rw [step, stepWith, ht]
  exact portTurn_closed _ _ ho

theorem portOpen_of_faulted {s : State} (hf : s.status.faulted = true) : portOpen s = false := by
  simp [portOpen, hf]

/-- An instruction that faults takes RangeError and does nothing else. -/
theorem Effect.eq_takeFault {c : Config} {i : Instr} {s s' : State} (he : Effect c i s s')
    (hf : s.status.faulted = false) (hf' : s'.status.faulted = true) : s' = takeFault .rangeError s := by
  cases he with
  | rangeError => rfl
  | answer | invalid | write | frame => exact absurd (hf.symm.trans hf') (by decide)

/-- No turn but reset's clears a fault or changes its cause. -/
theorem TurnEffect.faulted {c : Config} {t : Turn} {s s' : State} (he : TurnEffect c t s s')
    (hf : s.status.faulted = true) :
    (s'.status.faulted = true ∧ s'.status.fcause = s.status.fcause) ∨ t = .reset := by
  have hclosed : portOpen s ≠ true := by simp [portOpen_of_faulted hf]
  cases he with
  | pass | deliver => exact .inl ⟨hf, rfl⟩
  | illegal _ _ _ _ _ ho => exact absurd ho hclosed
  | run _ _ _ _ _ _ ho => exact absurd ho hclosed
  | reset ht => exact .inr ht

/-- Settles O14: the refused command's turn, the one faulting effect of an instruction, and the closed port of a
faulted block. -/
theorem faultIsTakenAndSticky : Obligations.FaultIsTakenAndSticky := by
  refine ⟨fun s ts cmd rest r ht hp hf hb hd => ?_, fun i s s' hs hf hf' => ?_, fun s ts hf ht => ?_,
    fun s s' hs hf => ?_, fun s hf => ?_⟩
  · rw [step, stepWith, ht, ← hb]
    exact portTurn_illegal exec (s := { s with turns := ts }) hp ((portOpen_iff _).2 ⟨hf, hb⟩) hd
  · exact (exec_effect hs).eq_takeFault hf hf'
  · exact step_portClosed ht (portOpen_of_faulted hf)
  · rw [step_eq_stepOn] at hs
    obtain ⟨t, ts, ht, he⟩ := stepOn_eq_next hs
    obtain hkept | hreset := he.faulted hf
    · exact .inl hkept
    · exact .inr (by rw [ht, hreset]; rfl)
  · simp [successfulEnd, hf]

end Sys2Proof.Machine
end

section
/-! PROOFS. What the four BitWord primitives answer, write and leave (O33–O40). -/

namespace Sys2Proof.Machine

/-! ### What each primitive makes of its operands, case by case -/

theorem readFieldOn_outside {c : Config} {first last : Nat} (s : State) (h : last < first ∨ c.wordLen ≤ last) :
    readFieldOn c first last s = .next (takeFault .rangeError s) := if_pos ((fieldOutOfRange_eq_true_iff ..).2 h)

theorem writeFieldOn_outside {c : Config} {first last : Nat} (value : Nat) (s : State)
    (h : last < first ∨ c.wordLen ≤ last) : writeFieldOn c first last value s = .next (takeFault .rangeError s) :=
  if_pos ((fieldOutOfRange_eq_true_iff ..).2 h)

theorem replaceRangeOn_invalid {c : Config} {first last : Nat} {p : List Bit} (s : State)
    (h : c.wordLen ≤ last ∨ (p.length : Int) ≠ (last : Int) - first + 1) :
    replaceRangeOn c first last p s = .next (respond .validationError .none s) :=
  if_pos ((replaceInvalid_eq_true_iff ..).2 h)

theorem replaceRangeOn_valid {c : Config} {first last : Nat} {p : List Bit} (s : State) (hl : last < c.wordLen)
    (h : (p.length : Int) = (last : Int) - first + 1) :
    replaceRangeOn c first last p s = .next (respond .ok .none (writeBits first p s)) := by
  rw [replaceRangeOn, (replaceInvalid_eq_false_iff ..).2 ⟨hl, h⟩]
  rfl

/-- A range is malformed, or it lies inside the word (R80, R84). -/
theorem range_malformed_or_inside (c : Config) (first last : Nat) :
    (last < first ∨ c.wordLen ≤ last) ∨ (first ≤ last ∧ last < c.wordLen) := by omega

/-- A replacement is refused, or its pattern fits a range that ends inside the word (R85, R86). -/
theorem replacement_invalid_or_valid (c : Config) (first last : Nat) (p : List Bit) :
    (c.wordLen ≤ last ∨ (p.length : Int) ≠ (last : Int) - first + 1) ∨
      (last < c.wordLen ∧ (p.length : Int) = (last : Int) - first + 1) := by omega

/-! ### The cells of a range -/

/-- Cell `last` is the least significant bit of the range's value (R81). -/
theorem cell_eq_testBit {s : State} {first last j : Nat} (hl : last < s.cw.length) (hf : first ≤ j) (hj : j ≤ last) :
    s.cell j = some ((bitsVal (memRead s.cw first (last - first + 1))).testBit (last - j)) := by
  have hlen : (memRead s.cw first (last - first + 1)).length = last - first + 1 := memRead_length _ _ _ (by omega)
  have hbit := bitsVal_testBit (memRead s.cw first (last - first + 1)) (j := j - first) (by omega)
  have hcell : first + (j - first) = j := by omega
  have hplace : last - first + 1 - 1 - (j - first) = last - j := by omega
  rwa [memRead_getElem?, if_pos (by omega), hcell, hlen, hplace] at hbit

/-- The cells from `first` on read as a pattern exactly when every one of them holds the pattern's bit (R88). -/
theorem memRead_eq_iff_cells {s : State} {first : Nat} {p : List Bit} :
    memRead s.cw first p.length = p ↔ ∀ j < p.length, s.cell (first + j) = p[j]? := by
  rw [List.ext_getElem?_iff]
  refine forall_congr' fun j => ?_
  rw [memRead_getElem?]
  split
  · next hj => exact ⟨fun hcell _ => hcell, fun hcell => hcell hj⟩
  · next hj => exact ⟨fun _ hlt => absurd hlt hj, fun _ => (List.getElem?_eq_none (Nat.le_of_not_lt hj)).symm⟩

@[simp] theorem writeBits_nil (a : Nat) (s : State) : writeBits a [] s = s := by rw [writeBits, memWrite_nil]

/-! ### The answers and the writes -/

/-- Settles O33: the answer is the value of the cells read, whose bits are the cells. -/
theorem readFieldAnswersTheField : Obligations.ReadFieldAnswersTheField := by
  refine ⟨fun first last s hwf h hl => ?_, fun first last s h => readFieldOn_outside s h⟩
  have hlen : last < s.cw.length := by rwa [(device_wf_iff _).1 hwf]
  exact ⟨_, readFieldOn_inside (c := Config.device) s h hl, bitsVal_memRead_lt _ _ _,
    fun j hf hj => cell_eq_testBit hlen hf hj⟩

/-- Settles O34: every cell after the write is known (`writeBits_bitsBE_cell`). -/
theorem writeFieldWritesTheField : Obligations.WriteFieldWritesTheField := by
  refine ⟨fun first last value s hwf h hl => ?_, fun first last value s h => writeFieldOn_outside value s h⟩
  have hlen : s.cw.length = 44 := (device_wf_iff _).1 hwf
  have hcell := writeBits_bitsBE_cell value s h (by omega)
  refine ⟨_, writeFieldOn_inside (c := Config.device) value s h hl, (memWrite_length ..).trans hlen,
    bitsVal_memRead_memWrite _ _ _ _ (by omega), fun j hf hj => ?_, fun j hj => ?_⟩
  · exact (hcell j).trans (if_pos ⟨hf, hj⟩)
  · exact (hcell j).trans (if_neg (by omega))

/-- READ_FIELD after WRITE_FIELD of the same field answers the value modulo `2^k` (R91). -/
theorem readFieldOn_written {c : Config} {first last : Nat} (v : Nat) {s : State} (h : first ≤ last)
    (hl : last < c.wordLen) (hs : last < s.cw.length) (code : RespCode) (data : RespData) :
    readFieldOn c first last (respond code data (writeBits first (bitsBE v (last - first + 1)) s)) =
      .next (respond .ok (.nat (v % 2 ^ (last - first + 1)))
        (respond code data (writeBits first (bitsBE v (last - first + 1)) s))) := by
  rw [readFieldOn_inside _ h hl, respond_cw, writeBits_cw, bitsVal_memRead_memWrite _ _ _ _ (by omega)]

/-- Settles O35: the cells just written are the cells read. -/
theorem writeThenReadGivesTheValueModulo : Obligations.WriteThenReadGivesTheValueModulo := by
  intro c first last v s hwf h hl
  have hlen : s.cw.length = c.wordLen := (Memory.wf_iff ..).1 hwf
  refine ⟨_, _, writeFieldOn_inside v s h hl, readFieldOn_written v h hl (by omega) _ _, rfl, fun hv => ?_⟩
  rw [respond_resp, Nat.mod_eq_of_lt hv]

/-- A field inside a word of at most `n` cells takes only the low `n` bits of the value (R83). -/
theorem writeFieldOn_mod {c : Config} {n : Nat} (first last v : Nat) (s : State) (hn : c.wordLen ≤ n) :
    writeFieldOn c first last (v % 2 ^ n) s = writeFieldOn c first last v s := by
  obtain hout | ⟨h, hl⟩ := range_malformed_or_inside c first last
  · rw [writeFieldOn_outside _ s hout, writeFieldOn_outside _ s hout]
  · rw [writeFieldOn_inside _ s h hl, writeFieldOn_inside _ s h hl, bitsBE_mod _ _ _ (by omega)]

/-- Settles O36: a field has at most `WORD_LEN` cells. -/
theorem sixtyFourBitsOfValueSuffice : Obligations.SixtyFourBitsOfValueSuffice := by
  intro c first last v s hc
  have hmod : execOn c (.writeField first last (v % 2 ^ 64)) s = execOn c (.writeField first last v) s :=
    writeFieldOn_mod first last v s hc
  refine ⟨hmod, fun hwf h hl => ⟨_, hmod.trans (writeFieldOn_inside v s h hl), ?_⟩⟩
  have hlen : s.cw.length = c.wordLen := (Memory.wf_iff ..).1 hwf
  exact bitsVal_memRead_memWrite _ _ _ _ (by omega)

/-- Settles O37: the checks come before the one write. -/
theorem replaceRangeIsAllOrNothing : Obligations.ReplaceRangeIsAllOrNothing := by
  refine ⟨fun first last p s h => replaceRangeOn_invalid s h, fun first last p s hwf hl hp => ?_, fun last s hl => ?_⟩
  · have hlen : s.cw.length = 44 := (device_wf_iff _).1 hwf
    exact ⟨_, replaceRangeOn_valid (c := Config.device) s hl hp, (memWrite_length ..).trans hlen,
      fun j hj => memWrite_inside _ _ _ j hj (by omega), fun j hj => memWrite_outside _ _ _ j (by omega)⟩
  · have hempty : (([] : List Bit).length : Int) = (last : Int) - (last + 1 : Nat) + 1 := by
      rw [List.length_nil]
      omega
    have hreplace := replaceRangeOn_valid (c := Config.device) s hl hempty
    rwa [writeBits_nil] at hreplace

/-- Settles O38: one case of EQUALS_RANGE a clause. -/
theorem equalsRangeComparesTheCells : Obligations.EqualsRangeComparesTheCells := by
  refine ⟨fun first last p s hp => equalsRangeOn_mismatch _ s hp, fun first last p s hp hl =>
    equalsRangeOn_beyond _ s hp hl, fun first last p s _ hp hl => ⟨_, equalsRangeOn_compare _ s hp hl, ?_⟩⟩
  rw [beq_iff_eq]
  exact memRead_eq_iff_cells

/-! ### The frame -/

/-- Without a fault, a command other than TRANSMIT leaves STATUS. -/
theorem Effect.status_eq {c : Config} {i : Instr} {s s' : State} (he : Effect c i s s') (hi : i ≠ .transmit)
    (hf : s'.status.faulted = false) : s'.status = s.status := by
  cases he with
  | rangeError => cases hf
  | frame ht => exact absurd ht hi
  | answer | invalid | write => rfl

/-- A command other than TRANSMIT that leaves STATUS changes CW and RESP at most. -/
theorem Effect.eq_of_status {c : Config} {i : Instr} {s s' : State} (he : Effect c i s s') (hi : i ≠ .transmit)
    (hs : s'.status = s.status) : s' = { s with cw := s'.cw, resp := s'.resp } := by
  cases he with
  | rangeError => exact congrArg (fun x => { s with status := x }) hs
  | frame ht => exact absurd ht hi
  | answer | invalid | write => rfl

/-- One that writes no word either changes RESP at most. -/
theorem Effect.eq_answer_of_status {c : Config} {i : Instr} {s s' : State} (he : Effect c i s s') (hi : i ≠ .transmit)
    (hw : writesWord i.op = false) (hs : s'.status = s.status) : s' = { s with resp := s'.resp } := by
  have hframe := he.eq_of_status hi hs
  rwa [he.cw_eq hw] at hframe

/-- A meaning that writes the same bits at the same place in every state, none of them outside `first` to `last`; a
fault or a failed check writes no bits. -/
def WritesRange (run : State → Outcome) (first last : Nat) : Prop :=
  ∃ l : List Bit, l.length ≤ last + 1 - first ∧ ∀ s t, run s = .next t → t.cw = memWrite s.cw first l

theorem WritesRange.of_cw_eq {run : State → Outcome} {first last : Nat}
    (h : ∀ s t, run s = .next t → t.cw = s.cw) : WritesRange run first last :=
  ⟨[], Nat.zero_le _, fun s t hs => (h s t hs).trans (memWrite_nil ..).symm⟩

theorem writeFieldOn_writesRange (c : Config) (first last value : Nat) :
    WritesRange (writeFieldOn c first last value) first last := by
  obtain hout | ⟨h, hl⟩ := range_malformed_or_inside c first last
  · refine .of_cw_eq fun s t hs => ?_
    cases (writeFieldOn_outside value s hout).symm.trans hs
    rfl
  · refine ⟨bitsBE value (last - first + 1), by rw [bitsBE_length]; omega, fun s t hs => ?_⟩
    cases (writeFieldOn_inside value s h hl).symm.trans hs
    rfl

theorem replaceRangeOn_writesRange (c : Config) (first last : Nat) (p : List Bit) :
    WritesRange (replaceRangeOn c first last p) first last := by
  obtain hbad | ⟨hl, hp⟩ := replacement_invalid_or_valid c first last p
  · refine .of_cw_eq fun s t hs => ?_
    cases (replaceRangeOn_invalid s hbad).symm.trans hs
    rfl
  · refine ⟨p, by omega, fun s t hs => ?_⟩
    cases (replaceRangeOn_valid s hl hp).symm.trans hs
    rfl

theorem exec_setPower_writesRange (on : Bit) : WritesRange (exec (.setPower on)) 4 7 := by
  refine ⟨if on then Config.device.patOn else Config.device.patOff, by cases on <;> decide, fun s t hs => ?_⟩
  cases hs
  rfl

theorem WritesRange.cell_outside {run : State → Outcome} {first last : Nat} (h : WritesRange run first last)
    {s t : State} (hs : run s = .next t) {j : Nat} (hj : j < first ∨ last < j) : t.cell j = s.cell j := by
  obtain ⟨l, hlen, hwrite⟩ := h
  rw [State.cell, hwrite s t hs, memWrite_outside _ _ _ _ (by omega), State.cell]

theorem WritesRange.twice {run : State → Outcome} {first last : Nat} (h : WritesRange run first last)
    {s t u : State} (hs : run s = .next t) (ht : run t = .next u) : u.cw = t.cw := by
  obtain ⟨l, -, hwrite⟩ := h
  rw [hwrite t u ht, hwrite s t hs, memWrite_memWrite_same]

/-- A REPLACE_RANGE that answers VALIDATION_ERROR changes RESP at most (R85). -/
theorem replaceRangeOn_failed {c : Config} {first last : Nat} {p : List Bit} {s t : State}
    (hs : replaceRangeOn c first last p s = .next t) (hcode : t.resp.code = .validationError) :
    t = { s with resp := t.resp } := by
  obtain hbad | ⟨hl, hp⟩ := replacement_invalid_or_valid c first last p
  · cases (replaceRangeOn_invalid s hbad).symm.trans hs
    rfl
  · cases (replaceRangeOn_valid s hl hp).symm.trans hs
    cases hcode

/-- Settles O39: without a fault STATUS stays, so CW and RESP alone change, and CW only inside the range. -/
theorem primitivesChangeOnlyTheirRange : Obligations.PrimitivesChangeOnlyTheirRange := by
  intro i s t hs _ ht
  have he := exec_effect hs
  cases i with
  | readField first last => exact he.eq_answer_of_status nofun rfl (he.status_eq nofun ht)
  | equalsRange first last p => exact he.eq_answer_of_status nofun rfl (he.status_eq nofun ht)
  | writeField first last v =>
    exact ⟨he.eq_of_status nofun (he.status_eq nofun ht),
      fun j hj => (writeFieldOn_writesRange _ first last v).cell_outside hs hj⟩
  | replaceRange first last p =>
    exact ⟨he.eq_of_status nofun (he.status_eq nofun ht),
      fun j hj => (replaceRangeOn_writesRange _ first last p).cell_outside hs hj, replaceRangeOn_failed hs⟩
  | setPower | incTemp | decTemp | encode | transmit => trivial

/-! ### Doing a command twice -/

/-- READ_FIELD again gives the state it gave, its answer and its fault alike. -/
theorem readFieldOn_repeats {c : Config} {first last : Nat} {s t : State} (hs : readFieldOn c first last s = .next t) :
    readFieldOn c first last t = .next t := by
  obtain hout | ⟨h, hl⟩ := range_malformed_or_inside c first last
  · cases (readFieldOn_outside s hout).symm.trans hs
    exact readFieldOn_outside _ hout
  · cases (readFieldOn_inside s h hl).symm.trans hs
    exact readFieldOn_inside _ h hl

/-- EQUALS_RANGE again gives the state it gave, its answer and its fault alike. -/
theorem equalsRangeOn_repeats {c : Config} {first last : Nat} {p : List Bit} {s t : State}
    (hs : equalsRangeOn c first last p s = .next t) : equalsRangeOn c first last p t = .next t := by
  by_cases hp : (p.length : Int) = (last : Int) - first + 1
  · obtain hl | hl := Nat.lt_or_ge last c.wordLen
    · cases (equalsRangeOn_compare c s hp hl).symm.trans hs
      exact equalsRangeOn_compare c _ hp hl
    · cases (equalsRangeOn_beyond c s hp hl).symm.trans hs
      exact equalsRangeOn_beyond c _ hp hl
  · cases (equalsRangeOn_mismatch c s hp).symm.trans hs
    exact equalsRangeOn_mismatch c _ hp

/-- Settles O40: the reads repeat, the writes write fixed bits, and from reset TEMP goes from 8 to 9 and 10, and to 7
and 6. -/
theorem readsArePureAndWritesIdempotent : Obligations.ReadsArePureAndWritesIdempotent := by
  refine ⟨fun first last p i hi s t hs hstatus => ?_, fun first last v p on i hi s t u hs ht => ?_, fun i hi => ?_,
    fun s => ⟨_, rfl⟩⟩
  · simp only [List.mem_cons, List.not_mem_nil, or_false] at hi
    obtain rfl | rfl := hi
    · exact ⟨(exec_effect hs).eq_answer_of_status nofun rfl hstatus, readFieldOn_repeats hs⟩
    · exact ⟨(exec_effect hs).eq_answer_of_status nofun rfl hstatus, equalsRangeOn_repeats hs⟩
  · simp only [List.mem_cons, List.not_mem_nil, or_false] at hi
    obtain rfl | rfl | rfl := hi
    · exact (writeFieldOn_writesRange _ first last v).twice hs ht
    · exact (replaceRangeOn_writesRange _ first last p).twice hs ht
    · exact (exec_setPower_writesRange on).twice hs ht
  · simp only [List.mem_cons, List.not_mem_nil, or_false] at hi
    obtain rfl | rfl := hi <;> exact ⟨State.reset, _, _, rfl, rfl, by decide⟩

end Sys2Proof.Machine
end

section
/-! PROOFS. The mutators of the command state: their limits, what they write and leave, and the primitives they are
built from (O42–O49). -/

namespace Sys2Proof.Machine

/-! ### What an accepted configuration says of the mutators' fields and literals -/

theorem field_inside_of_configOk {c : Config} (hc : configOk c = true) {f : Field}
    (hf : f ∈ [c.fPower, c.fTemp, c.fMirror]) : f.first ≤ f.last ∧ f.last < c.wordLen := by
  obtain ⟨-, -, hfields, -⟩ := (configOk_iff c).1 hc
  exact hfields f hf

theorem powerLiterals_length {c : Config} (hc : configOk c = true) :
    c.patOn.length = c.fPower.width ∧ c.patOff.length = c.fPower.width := by
  obtain ⟨-, -, -, hpower, -⟩ := (configOk_iff c).1 hc
  exact hpower

theorem tempLiterals_length {c : Config} (hc : configOk c = true) :
    c.patTempMax.length = c.fTemp.width ∧ c.patTempMin.length = c.fTemp.width := by
  obtain ⟨-, -, -, -, htemp, -⟩ := (configOk_iff c).1 hc
  exact htemp

/-- A literal of a field's width has the length that the primitives ask of a pattern for the field's range. -/
theorem length_eq_range_of_width {f : Field} {p : List Bit} (hf : f.first ≤ f.last) (hp : p.length = f.width) :
    (p.length : Int) = (f.last : Int) - f.first + 1 := by
  rw [hp, Field.width]
  omega

/-! ### The primitives on a field inside the word -/

section
variable {c : Config} {f : Field} (s : State) (hf : f.first ≤ f.last ∧ f.last < c.wordLen)
include hf

theorem execOn_readField_field :
    execOn c (.readField f.first f.last) s = .next (respond .ok (.nat (fieldVal f s)) s) :=
  readFieldOn_inside s hf.1 hf.2

theorem execOn_writeField_field (v : Nat) :
    execOn c (.writeField f.first f.last v) s = .next (respond .ok .none (setField f v s)) :=
  writeFieldOn_inside v s hf.1 hf.2

theorem execOn_replaceRange_field {p : List Bit} (hp : p.length = f.width) :
    execOn c (.replaceRange f.first f.last p) s = .next (respond .ok .none (writeBits f.first p s)) :=
  replaceRangeOn_valid s hf.2 (length_eq_range_of_width hf.1 hp)

theorem execOn_equalsRange_field {p : List Bit} (hp : p.length = f.width) :
    execOn c (.equalsRange f.first f.last p) s = .next (respond .ok (.bool (fieldBits f s == p)) s) := by
  rw [fieldBits, ← hp]
  exact equalsRangeOn_compare c s (length_eq_range_of_width hf.1 hp) hf.2

end

/-! ### The guards -/

theorem execOn_incTemp_blocked {c : Config} {s : State} (h : fieldBits c.fTemp s = c.patTempMax) :
    execOn c .incTemp s = .next { s with resp := ⟨.ok, .none⟩ } := by
  rw [execOn, incTempOn, if_pos h]
  rfl

theorem execOn_incTemp_raises {c : Config} {s : State} (h : fieldBits c.fTemp s ≠ c.patTempMax) :
    execOn c .incTemp s = .next { s with cw := (raiseTemp c s).cw, resp := ⟨.ok, .none⟩ } := by
  rw [execOn, incTempOn, if_neg h]
  rfl

theorem execOn_decTemp_blocked {c : Config} {s : State} (h : fieldBits c.fTemp s = c.patTempMin) :
    execOn c .decTemp s = .next { s with resp := ⟨.ok, .none⟩ } := by
  rw [execOn, decTempOn, if_pos h]
  rfl

theorem execOn_decTemp_lowers {c : Config} {s : State} (h : fieldBits c.fTemp s ≠ c.patTempMin) :
    execOn c .decTemp s = .next { s with cw := (lowerTemp c s).cw, resp := ⟨.ok, .none⟩ } := by
  rw [execOn, decTempOn, if_neg h]
  rfl

/-- Settles O45: the guard compares TEMP's bits with the pattern before anything is written. -/
theorem limitPatternBlocksTheChange : Obligations.LimitPatternBlocksTheChange :=
  ⟨fun _ _ h => execOn_incTemp_blocked h, fun _ _ h => execOn_decTemp_blocked h⟩

/-! ### The changes, where TEMP and MIRROR share no cell -/

/-- The order both changes follow: TEMP is set to `f` of its value, then MIRROR to `g` of the value it then has. -/
def changeTempMirror (c : Config) (f g : Nat → Nat) (s : State) : State :=
  let s₁ := setField c.fTemp (f (fieldVal c.fTemp s)) s
  setField c.fMirror (g (fieldVal c.fMirror s₁)) s₁

theorem raiseTemp_eq_change (c : Config) (s : State) : raiseTemp c s = changeTempMirror c (· + 1) (· - 1) s := rfl

theorem lowerTemp_eq_change (c : Config) (s : State) : lowerTemp c s = changeTempMirror c (· - 1) (· + 1) s := rfl

@[simp] theorem changeTempMirror_cw_length (c : Config) (f g : Nat → Nat) (s : State) :
    (changeTempMirror c f g s).cw.length = s.cw.length := by
  simp [changeTempMirror]

/-- TEMP and MIRROR lie inside the word and share no cell. -/
structure TempMirrorApart (c : Config) (s : State) : Prop where
  temp_le : c.fTemp.first ≤ c.fTemp.last
  temp_lt : c.fTemp.last < s.cw.length
  mirror_le : c.fMirror.first ≤ c.fMirror.last
  mirror_lt : c.fMirror.last < s.cw.length
  apart : c.fTemp.last < c.fMirror.first ∨ c.fMirror.last < c.fTemp.first

theorem tempMirrorApart_of_configOk {c : Config} {s : State} (hc : configOk c = true) (hwf : Memory.wf c s.cw = true)
    (h : c.fTemp.last < c.fMirror.first ∨ c.fMirror.last < c.fTemp.first) : TempMirrorApart c s := by
  have hlen := (Memory.wf_iff ..).1 hwf
  obtain ⟨hT, hTlt⟩ := field_inside_of_configOk (f := c.fTemp) hc (by simp)
  obtain ⟨hM, hMlt⟩ := field_inside_of_configOk (f := c.fMirror) hc (by simp)
  exact ⟨hT, hlen ▸ hTlt, hM, hlen ▸ hMlt, h⟩

theorem tempMirrorApart_device {s : State} (hwf : Memory.wf Config.device s.cw = true) :
    TempMirrorApart Config.device s :=
  tempMirrorApart_of_configOk (configOk_ref_tOne _) hwf (by decide)

namespace TempMirrorApart
variable {c : Config} {s : State} (h : TempMirrorApart c s)
include h

theorem temp_raiseTemp : fieldVal c.fTemp (raiseTemp c s) = (fieldVal c.fTemp s + 1) % 2 ^ c.fTemp.width :=
  fieldVal_raiseTemp h.temp_le h.temp_lt h.mirror_le h.apart.symm

/-- One less than a field's value still fits the field. -/
theorem temp_lowerTemp : fieldVal c.fTemp (lowerTemp c s) = fieldVal c.fTemp s - 1 := by
  rw [fieldVal_lowerTemp h.temp_le h.temp_lt h.mirror_le h.apart.symm]
  exact Nat.mod_eq_of_lt (Nat.sub_lt_of_lt (fieldVal_lt ..))

/-- The write to TEMP leaves the value that the write to MIRROR starts from. -/
theorem mirror_changeTempMirror (f g : Nat → Nat) :
    fieldVal c.fMirror (changeTempMirror c f g s) = g (fieldVal c.fMirror s) % 2 ^ c.fMirror.width := by
  rw [changeTempMirror, fieldVal_setField _ _ _ h.mirror_le (by simpa using h.mirror_lt),
    fieldVal_setField_other _ _ _ _ h.temp_le h.mirror_le h.apart]

/-- One less than a field's value still fits the field. -/
theorem mirror_raiseTemp : fieldVal c.fMirror (raiseTemp c s) = fieldVal c.fMirror s - 1 := by
  rw [raiseTemp_eq_change, h.mirror_changeTempMirror]
  exact Nat.mod_eq_of_lt (Nat.sub_lt_of_lt (fieldVal_lt ..))

theorem mirror_lowerTemp :
    fieldVal c.fMirror (lowerTemp c s) = (fieldVal c.fMirror s + 1) % 2 ^ c.fMirror.width := by
  rw [lowerTemp_eq_change, h.mirror_changeTempMirror]

/-- INC_TEMP with TEMP not at the maximum (R102, R107). -/
theorem incTemp (hp : c.patTempMax.length = c.fTemp.width) (hne : fieldVal c.fTemp s ≠ bitsVal c.patTempMax) :
    ∃ t, execOn c .incTemp s = .next t ∧
      fieldVal c.fTemp t = (fieldVal c.fTemp s + 1) % 2 ^ c.fTemp.width ∧
      fieldVal c.fMirror t = fieldVal c.fMirror s - 1 :=
  ⟨_, execOn_incTemp_raises (mt (fieldBits_eq_iff h.temp_le h.temp_lt hp).1 hne), h.temp_raiseTemp,
    h.mirror_raiseTemp⟩

/-- DEC_TEMP with TEMP not at the minimum (R103, R107). -/
theorem decTemp (hp : c.patTempMin.length = c.fTemp.width) (hne : fieldVal c.fTemp s ≠ bitsVal c.patTempMin) :
    ∃ t, execOn c .decTemp s = .next t ∧
      fieldVal c.fTemp t = fieldVal c.fTemp s - 1 ∧
      fieldVal c.fMirror t = (fieldVal c.fMirror s + 1) % 2 ^ c.fMirror.width :=
  ⟨_, execOn_decTemp_lowers (mt (fieldBits_eq_iff h.temp_le h.temp_lt hp).1 hne), h.temp_lowerTemp,
    h.mirror_lowerTemp⟩

end TempMirrorApart

/-- Settles O46: the write to TEMP leaves MIRROR and the write to MIRROR leaves TEMP. -/
theorem tempAndMirrorCoupleAsymmetrically : Obligations.TempAndMirrorCoupleAsymmetrically := by
  intro c s hc hwf hapart
  have h := tempMirrorApart_of_configOk hc hwf hapart
  obtain ⟨hmax, hmin⟩ := tempLiterals_length hc
  exact ⟨h.incTemp hmax, h.decTemp hmin⟩

/-! ### The device's mutators, cell by cell -/

/-- On the device the cells outside TEMP and MIRROR are the rest of the word. -/
theorem cellOutside_temp_mirror_device {j : Nat} (hj : j < 12 ∨ (15 < j ∧ j < 40) ∨ 43 < j) :
    CellOutside Config.device.fTemp j ∧ CellOutside Config.device.fMirror j := by
  simp only [CellOutside, Field.width, device_fTemp, device_fMirror]
  omega

/-- Settles O43: TEMP and MIRROR are written, in cells of their own, only when the guard lets INC_TEMP pass. -/
theorem incTempStepsTempAndMirror : Obligations.IncTempStepsTempAndMirror := by
  refine fun s hwf => ⟨fun hmax => execOn_incTemp_blocked (c := Config.device) hmax, fun hne => ?_⟩
  have h := tempMirrorApart_device hwf
  have hlen : (raiseTemp Config.device s).cw.length = 44 := by
    rw [raiseTemp_eq_change, changeTempMirror_cw_length, (device_wf_iff _).1 hwf]
  refine ⟨_, execOn_incTemp_raises (c := Config.device) hne, hlen, h.temp_raiseTemp, h.mirror_raiseTemp,
    fun j hj => ?_⟩
  obtain ⟨hT, hM⟩ := cellOutside_temp_mirror_device hj
  exact raiseTemp_cell s hT hM

/-- Settles O44: TEMP and MIRROR are written, in cells of their own, only when the guard lets DEC_TEMP pass. -/
theorem decTempStepsTempAndMirror : Obligations.DecTempStepsTempAndMirror := by
  refine fun s hwf => ⟨fun hmin => execOn_decTemp_blocked (c := Config.device) hmin, fun hne => ?_⟩
  have h := tempMirrorApart_device hwf
  have hlen : (lowerTemp Config.device s).cw.length = 44 := by
    rw [lowerTemp_eq_change, changeTempMirror_cw_length, (device_wf_iff _).1 hwf]
  refine ⟨_, execOn_decTemp_lowers (c := Config.device) hne, hlen, h.temp_lowerTemp, h.mirror_lowerTemp,
    fun j hj => ?_⟩
  obtain ⟨hT, hM⟩ := cellOutside_temp_mirror_device hj
  exact lowerTemp_cell s hT hM

/-- The device's power literal is the bit and three zeros (R101). -/
theorem device_powerLiteral (on : Bit) :
    (if on then Config.device.patOn else Config.device.patOff) = [on, false, false, false] := by
  cases on <;> rfl

theorem exec_setPower (on : Bit) (s : State) : exec (.setPower on) s =
    .next { s with cw := memWrite s.cw 4 [on, false, false, false], resp := ⟨.ok, .none⟩ } := by
  rw [← device_powerLiteral]
  rfl

/-- Settles O42: the literal is written from cell 4 on. -/
theorem setPowerWritesItsLiteral : Obligations.SetPowerWritesItsLiteral := by
  intro on s hwf
  have hlen : s.cw.length = 44 := (device_wf_iff _).1 hwf
  have hlit : ∀ j < 4, (memWrite s.cw 4 [on, false, false, false])[4 + j]? = [on, false, false, false][j]? :=
    fun j hj => memWrite_inside _ _ _ j hj (by omega)
  exact ⟨_, exec_setPower on s, (memWrite_length ..).trans hlen, hlit 0 (by decide), hlit 1 (by decide),
    hlit 2 (by decide), hlit 3 (by decide),
    fun j hj => (exec_setPower_writesRange on).cell_outside (exec_setPower on s) hj⟩

/-! ### The sum of TEMP and MIRROR -/

theorem incTemp_sum_iff {s t : State} (hwf : Memory.wf Config.device s.cw = true) (hs : exec .incTemp s = .next t) :
    fieldVal Config.device.fTemp t + fieldVal Config.device.fMirror t =
      fieldVal Config.device.fTemp s + fieldVal Config.device.fMirror s ↔
      fieldVal Config.device.fTemp s = 11 ∨
        (fieldVal Config.device.fTemp s ≠ 15 ∧ fieldVal Config.device.fMirror s ≠ 0) := by
  have h := tempMirrorApart_device hwf
  by_cases hmax : fieldVal Config.device.fTemp s = 11
  · have hbits := (fieldBits_eq_iff h.temp_le h.temp_lt (p := Config.device.patTempMax) rfl).2 hmax
    cases (execOn_incTemp_blocked hbits).symm.trans hs
    exact iff_of_true rfl (.inl hmax)
  · obtain ⟨u, hu, hT, hM⟩ := h.incTemp rfl hmax
    cases hu.symm.trans hs
    have hlt : fieldVal Config.device.fTemp s < 16 := fieldVal_lt ..
    have hT16 : fieldVal Config.device.fTemp t = (fieldVal Config.device.fTemp s + 1) % 16 := hT
    omega

theorem decTemp_sum_iff {s t : State} (hwf : Memory.wf Config.device s.cw = true) (hs : exec .decTemp s = .next t) :
    fieldVal Config.device.fTemp t + fieldVal Config.device.fMirror t =
      fieldVal Config.device.fTemp s + fieldVal Config.device.fMirror s ↔
      fieldVal Config.device.fTemp s = 0 ∨ fieldVal Config.device.fMirror s ≠ 15 := by
  have h := tempMirrorApart_device hwf
  by_cases hmin : fieldVal Config.device.fTemp s = 0
  · have hbits := (fieldBits_eq_iff h.temp_le h.temp_lt (p := Config.device.patTempMin) rfl).2 hmin
    cases (execOn_decTemp_blocked hbits).symm.trans hs
    exact iff_of_true rfl (.inl hmin)
  · obtain ⟨u, hu, hT, hM⟩ := h.decTemp rfl hmin
    cases hu.symm.trans hs
    have hlt : fieldVal Config.device.fMirror s < 16 := fieldVal_lt ..
    have hM16 : fieldVal Config.device.fMirror t = (fieldVal Config.device.fMirror s + 1) % 16 := hM
    omega

/-- Settles O47: a blocked command keeps both values, and one that passes moves the two by one in opposite directions
unless it floors or truncates one of them. -/
theorem tempMirrorSumIsNoInvariant : Obligations.TempMirrorSumIsNoInvariant := by
  refine ⟨by decide, fun s t hwf hs => incTemp_sum_iff hwf hs, fun s t hwf hs => decTemp_sum_iff hwf hs,
    fun s hwf htemp hmirror => ?_⟩
  have hmin : fieldVal Config.device.fTemp s ≠ bitsVal Config.device.patTempMin := by
    rw [htemp]
    decide
  obtain ⟨t, ht, hT, hM⟩ := (tempMirrorApart_device hwf).decTemp rfl hmin
  rw [htemp] at hT
  rw [hmirror] at hM
  exact ⟨t, ht, hT, hM⟩

/-! ### The primitives under the mutators -/

theorem replaceInvalid_field_eq_false {c : Config} {f : Field} {p : List Bit}
    (hf : f.first ≤ f.last ∧ f.last < c.wordLen) (hp : p.length = f.width) :
    replaceInvalid c f.first f.last p = false :=
  (replaceInvalid_eq_false_iff ..).2 ⟨hf.2, length_eq_range_of_width hf.1 hp⟩

/-- A command that writes the word and has no check of its own ends in a write. -/
theorem Effect.eq_write {c : Config} {i : Instr} {s s' : State} (he : Effect c i s s') (hw : writesWord i.op = true)
    (hr : mayRangeError i.op = false) (hv : i.op ≠ .replaceRange) :
    ∃ cw, s' = { s with cw := cw, resp := ⟨.ok, .none⟩ } ∧ cw.length = s.cw.length := by
  cases he with
  | write cw _ hlen => exact ⟨cw, rfl, hlen⟩
  | rangeError hfault => exact absurd (hr.symm.trans hfault) nofun
  | answer _ _ hreads => exact absurd (hreads.symm.trans hw) nofun
  | invalid hop => exact absurd hop hv
  | frame hi => subst hi; cases hw

/-- Settles O48: R174's conditions are the primitives' checks, and the mutators have no other effect than a write. -/
theorem mutatorsNeverFail : Obligations.MutatorsNeverFail := by
  intro c hc
  have hP := field_inside_of_configOk (f := c.fPower) hc (by simp)
  have hT := field_inside_of_configOk (f := c.fTemp) hc (by simp)
  have hM := field_inside_of_configOk (f := c.fMirror) hc (by simp)
  obtain ⟨hon, hoff⟩ := powerLiterals_length hc
  refine ⟨⟨replaceInvalid_field_eq_false hP hon, replaceInvalid_field_eq_false hP hoff,
    (fieldOutOfRange_eq_false_iff ..).2 hT, (fieldOutOfRange_eq_false_iff ..).2 hM⟩, fun on s i hi => ?_⟩
  have hop : writesWord i.op = true ∧ mayRangeError i.op = false ∧ i.op ≠ .replaceRange := by
    simp only [List.mem_cons, List.not_mem_nil, or_false] at hi
    obtain rfl | rfl | rfl := hi <;> exact ⟨rfl, rfl, nofun⟩
  obtain ⟨hw, hr, hv⟩ := hop
  obtain ⟨s', hs, he⟩ := execOn_effect c i s
  obtain ⟨cw, rfl, hlen⟩ := he.eq_write hw hr hv
  exact ⟨cw, hs, hlen⟩

/-- `i` is the source's sequence of primitives: the guard EQUALS_RANGE of TEMP with `p`, and where it answers no, TEMP
read and written as `f` of its value, then MIRROR read and written as `g` of its value. -/
def GuardedSequence (c : Config) (p : List Bit) (f g : Nat → Nat) (i : Instr) (s : State) : Prop :=
  ∃ b s₁, execOn c (.equalsRange c.fTemp.first c.fTemp.last p) s = .next s₁ ∧ s₁.resp = ⟨.ok, .bool b⟩ ∧
    if b then execOn c i s = .next { s with resp := ⟨.ok, .none⟩ }
    else ∃ t m s₂ s₃ s₄ s₅, execOn c (.readField c.fTemp.first c.fTemp.last) s₁ = .next s₂ ∧
      s₂.resp = ⟨.ok, .nat t⟩ ∧
      execOn c (.writeField c.fTemp.first c.fTemp.last (f t)) s₂ = .next s₃ ∧
      execOn c (.readField c.fMirror.first c.fMirror.last) s₃ = .next s₄ ∧ s₄.resp = ⟨.ok, .nat m⟩ ∧
      execOn c (.writeField c.fMirror.first c.fMirror.last (g m)) s₄ = .next s₅ ∧
      execOn c i s = .next s₅

/-- A command that leaves CW when TEMP holds `p`, and else changes TEMP and then MIRROR, is the sequence: the answers in
RESP on the way touch no cell, and the last write overwrites them. -/
theorem guardedSequence_of_change {c : Config} {p : List Bit} {f g : Nat → Nat} {i : Instr} {s : State}
    (hT : c.fTemp.first ≤ c.fTemp.last ∧ c.fTemp.last < c.wordLen)
    (hM : c.fMirror.first ≤ c.fMirror.last ∧ c.fMirror.last < c.wordLen) (hp : p.length = c.fTemp.width)
    (hblocked : fieldBits c.fTemp s = p → execOn c i s = .next { s with resp := ⟨.ok, .none⟩ })
    (hchange : fieldBits c.fTemp s ≠ p → execOn c i s = .next (respond .ok .none (changeTempMirror c f g s))) :
    GuardedSequence c p f g i s := by
  refine ⟨_, _, execOn_equalsRange_field s hT hp, rfl, ?_⟩
  split
  · next hb => exact hblocked (beq_iff_eq.1 hb)
  · next hb =>
    exact ⟨_, _, _, _, _, _, execOn_readField_field _ hT, rfl, execOn_writeField_field _ hT _,
      execOn_readField_field _ hM, rfl, execOn_writeField_field _ hM _, hchange (mt beq_iff_eq.2 hb)⟩

theorem execOn_setPower_eq_replaceRange {c : Config} (hc : configOk c = true) (on : Bit) (s : State) :
    execOn c (.setPower on) s =
      execOn c (.replaceRange c.fPower.first c.fPower.last (if on then c.patOn else c.patOff)) s := by
  obtain ⟨hon, hoff⟩ := powerLiterals_length hc
  have hlit : (if on then c.patOn else c.patOff).length = c.fPower.width := by cases on <;> assumption
  exact (execOn_replaceRange_field s (field_inside_of_configOk hc (by simp)) hlit).symm

/-- Settles O49: each mutator runs its primitives in order, every check of theirs passing. -/
theorem mutatorsAreBuiltFromPrimitives : Obligations.MutatorsAreBuiltFromPrimitives := by
  intro c s hc _
  have hT := field_inside_of_configOk (f := c.fTemp) hc (by simp)
  have hM := field_inside_of_configOk (f := c.fMirror) hc (by simp)
  obtain ⟨hmax, hmin⟩ := tempLiterals_length hc
  refine ⟨fun on => execOn_setPower_eq_replaceRange hc on s, ?_, ?_⟩
  · exact guardedSequence_of_change (f := (· + 1)) (g := (· - 1)) hT hM hmax execOn_incTemp_blocked
      execOn_incTemp_raises
  · exact guardedSequence_of_change (f := (· - 1)) (g := (· + 1)) hT hM hmin execOn_decTemp_blocked
      execOn_decTemp_lowers

end Sys2Proof.Machine
end

section
/-! PROOFS. The encoder's timeline: its length, its item at every position and the bits it determines; ENCODE's answer
and TRANSMIT's frame (O50, O51, O52, O54, O55, O56). -/

namespace Sys2Proof.Machine

/-! ### The whole timeline -/

@[simp] theorem pulseEncode_length (c : Config) (bits : List Bit) :
    (pulseEncode c bits).length = (nLead c + 1) + bits.length * (mBit c + 1) + (mBit c + 1) := by
  simp [pulseEncode, Nat.add_assoc]

/-- Settles O50: the three segments with their counts written as quotients (R127). -/
theorem encodeAnswersTheTimeline : Obligations.EncodeAnswersTheTimeline := by
  refine ⟨fun c bits hp => ?_, fun bits s => rfl⟩
  rw [← nLead_eq_div hp, ← mBit_eq_div hp, ← List.flatMap_def]
  rfl

/-- Settles O51: the segments' lengths, added up. -/
theorem timelineLengthIsClosedForm : Obligations.TimelineLengthIsClosedForm := by
  refine ⟨fun c bits hp => ?_, fun bits => ?_⟩
  · rw [← nLead_eq_div hp, ← mBit_eq_div hp, pulseEncode_length]
  · rw [pulseEncode_length, nLead_device, mBit_device, Nat.mul_comm]

/-! ### Its item at every position -/

section
variable (c : Config) (bits : List Bit)

theorem pulseEncode_getElem?_lead {p : Nat} (hp : p ≤ nLead c) : (pulseEncode c bits)[p]? = (leadCode c)[p]? := by
  rw [pulseEncode, List.append_assoc, List.getElem?_append_left (by simpa using Nat.lt_succ_of_le hp)]

/-- What follows the lead code. -/
theorem pulseEncode_getElem?_after_lead (q : Nat) :
    (pulseEncode c bits)[nLead c + 1 + q]? = (bits.flatMap (burst c) ++ endOfFrame c)[q]? := by
  rw [pulseEncode, List.append_assoc, List.getElem?_append_right (by simp), leadCode_length, Nat.add_sub_cancel_left]

/-- Item `r` of burst `i` (R129). -/
theorem pulseEncode_getElem?_burst {i r : Nat} (hi : i < bits.length) (hr : r ≤ mBit c) :
    (pulseEncode c bits)[nLead c + 1 + (i * (mBit c + 1) + r)]? = (bits[i]?).bind fun b => (burst c b)[r]? := by
  have hinside : i * (mBit c + 1) + r < bits.length * (mBit c + 1) :=
    calc i * (mBit c + 1) + r < i * (mBit c + 1) + (mBit c + 1) := by omega
      _ = (i + 1) * (mBit c + 1) := (Nat.succ_mul ..).symm
      _ ≤ bits.length * (mBit c + 1) := Nat.mul_le_mul_right _ hi
  rw [pulseEncode_getElem?_after_lead, List.getElem?_append_left (by rwa [bursts_length]),
    bursts_getElem? c bits i r (Nat.lt_succ_of_le hr)]

/-- Item `r` of the end-of-frame marker. -/
theorem pulseEncode_getElem?_endOfFrame (r : Nat) :
    (pulseEncode c bits)[nLead c + 1 + (bits.length * (mBit c + 1) + r)]? = (endOfFrame c)[r]? := by
  rw [pulseEncode_getElem?_after_lead, List.getElem?_append_right (by simp), bursts_length, Nat.add_sub_cancel_left]

/-- The carriers of burst `i`, whatever its bit is (R125). -/
theorem pulseEncode_getElem?_burst_carrier {i r : Nat} (hi : i < bits.length) (hr : r < mBit c) :
    (pulseEncode c bits)[nLead c + 1 + (i * (mBit c + 1) + r)]? = some (carrier c) := by
  rw [pulseEncode_getElem?_burst c bits hi hr.le, List.getElem?_eq_getElem hi]
  exact (carriers_getElem? _ _ _ _ hr.le).trans (by rw [if_pos hr])

/-- Burst `i` ends with its bit's terminator (R124). -/
theorem pulseEncode_getElem?_bitTerm {i : Nat} (hi : i < bits.length) :
    (pulseEncode c bits)[nLead c + 1 + (i * (mBit c + 1) + mBit c)]? = (bits[i]?).map (bitTerm c) := by
  rw [pulseEncode_getElem?_burst c bits hi le_rfl, List.getElem?_eq_getElem hi]
  exact (carriers_getElem? _ _ _ _ le_rfl).trans (by simp)

end

/-- Settles O52: each position lies in the lead code, a burst or the end-of-frame marker, each of which is a run of
carriers and one last item. -/
theorem timelineItemAtEveryPosition : Obligations.TimelineItemAtEveryPosition := by
  rintro c bits n m hp rfl rfl
  rw [← nLead_eq_div hp, ← mBit_eq_div hp]
  refine ⟨fun p hlt => ?_, ?_, fun i hi r hr => pulseEncode_getElem?_burst_carrier c bits hi hr,
    fun i hi => pulseEncode_getElem?_bitTerm c bits hi, fun r hr => ?_, ?_, fun p hlt => ?_⟩
  · rw [pulseEncode_getElem?_lead c bits hlt.le, leadCode, carriers_getElem? _ _ _ _ hlt.le, if_pos hlt]
  · rw [pulseEncode_getElem?_lead c bits le_rfl, leadCode, carriers_getElem? _ _ _ _ le_rfl, if_neg (lt_irrefl _)]
  · rw [pulseEncode_getElem?_endOfFrame, endOfFrame, carriers_getElem? _ _ _ _ hr.le, if_pos hr]
  · rw [pulseEncode_getElem?_endOfFrame, endOfFrame, carriers_getElem? _ _ _ _ le_rfl, if_neg (lt_irrefl _)]
  · refine List.getElem?_eq_none ?_
    rw [pulseEncode_length]
    omega

/-! ### Degenerate constants -/

/-- A duration shorter than the carrier period holds no sub-pulse (R132). -/
theorem subPulses_eq_zero {c : Config} {d : Nat} (h : d < c.tHigh + c.tLow) : subPulses c d = 0 := by
  rw [subPulses_eq_div d (by omega), Nat.div_eq_of_lt h]

theorem burst_congr {c : Config} {b b' : Bit} (h : gapOf c b = gapOf c b') : burst c b = burst c b' := by
  rw [burst, burst, bitTerm, bitTerm, h]

theorem gapOf_eq_tZero {c : Config} (h : c.oneGap = c.tZero) (b : Bit) : gapOf c b = c.tZero := by
  cases b with
  | false => rfl
  | true => exact h

/-- Where the two gaps are equal, a timeline tells no more than how many bits it encodes. -/
theorem pulseEncode_eq_of_length {c : Config} (h : c.oneGap = c.tZero) {bits bits' : List Bit}
    (hl : bits.length = bits'.length) : pulseEncode c bits = pulseEncode c bits' := by
  have hburst : burst c = fun _ => burst c false :=
    funext fun b => burst_congr (gapOf_eq_tZero h b)
  have hbursts (l : List Bit) : l.flatMap (burst c) = (List.replicate l.length (burst c false)).flatten := by
    rw [List.flatMap_def, hburst, List.map_const']
  rw [pulseEncode, pulseEncode, hbursts, hbursts, hl]

/-- Settles O54: no sub-pulses where the duration is short, one burst for both bits where the gaps are equal. -/
theorem degenerateConstantsShrinkTheFrame : Obligations.DegenerateConstantsShrinkTheFrame := by
  refine fun c => ⟨fun h => ?_, fun h => ?_, fun h => ⟨?_, fun bits bits' => pulseEncode_eq_of_length h⟩, ?_⟩
  · rw [leadCode, nLead, subPulses_eq_zero h]
    rfl
  · have hm : mBit c = 0 := subPulses_eq_zero h
    refine ⟨fun b => ?_, ?_⟩
    · rw [burst, hm]
      rfl
    · rw [endOfFrame, hm]
      rfl
  · rw [bitTerm, bitTerm, gapOf_eq_tZero h, gapOf_eq_tZero h]
  · rw [pulseEncode, List.flatMap_nil, List.append_nil]

/-! ### The bits a frame determines -/

theorem gapOf_injective {c : Config} (h : c.oneGap ≠ c.tZero) : Function.Injective (gapOf c) := by
  rintro (_ | _) (_ | _) hgap
  · rfl
  · exact absurd hgap.symm h
  · exact absurd hgap h
  · rfl

/-- A burst's last item carries its bit's gap. -/
theorem burst_injective {c : Config} (h : c.oneGap ≠ c.tZero) : Function.Injective (burst c) := by
  intro b b' hb
  have hterm : [bitTerm c b] = [bitTerm c b'] := List.append_cancel_left hb
  injection hterm with hitem
  injection hitem with _ hgap
  exact gapOf_injective h hgap

/-- All bursts are equally long, so a run of bursts is taken apart from its head. -/
theorem bursts_injective {c : Config} (h : c.oneGap ≠ c.tZero) :
    Function.Injective fun bits : List Bit => bits.flatMap (burst c) := by
  intro bits bits' hb
  induction bits generalizing bits' with
  | nil =>
    cases bits' with
    | nil => rfl
    | cons b' bits' => simp [burst] at hb
  | cons b bits ih =>
    cases bits' with
    | nil => simp [burst] at hb
    | cons b' bits' =>
      obtain ⟨hhead, htail⟩ := List.append_inj hb (by rw [burst_length, burst_length])
      rw [burst_injective h hhead, ih htail]

/-- Settles O55: the lead code and the end-of-frame marker are common to both frames, and the bursts determine the
bits. -/
theorem frameDeterminesItsBits : Obligations.FrameDeterminesItsBits := by
  intro c bits bits' h ht
  exact bursts_injective h (List.append_cancel_left (List.append_cancel_right ht))

/-! ### TRANSMIT's frame -/

/-- In REF the terminator of bit `j` is item `346 + 1 + 22 * j + 21` of the frame (R129). -/
theorem pulseEncode_device_bitTerm {bits : List Bit} {j : Nat} (hj : j < bits.length) :
    (pulseEncode Config.device bits)[368 + 22 * j]? =
      (bits[j]?).map fun b => ⟨.high, if b then Config.tOneOpen else 560, .low, 0⟩ := by
  have hindex : 368 + 22 * j = nLead Config.device + 1 + (j * (mBit Config.device + 1) + mBit Config.device) := by
    rw [nLead_device, mBit_device]
    omega
  rw [hindex]
  exact pulseEncode_getElem?_bitTerm Config.device bits hj

/-- Settles O56: the word read is the whole word, and a pending frame stays or leaves OUT (O28). -/
theorem transmitBuffersTheFrame : Obligations.TransmitBuffersTheFrame := by
  refine ⟨fun s hwf => ?_, fun s s' t hi hs hout => ?_⟩
  · have hlen : s.cw.length = 44 := (device_wf_iff _).1 hwf
    refine ⟨?_, ?_, fun j hj => pulseEncode_device_bitTerm (hlen ▸ hj)⟩
    · have hexec : exec .transmit s =
          .next (respond .ok .none (putFrame (pulseEncode Config.device (memRead s.cw 0 Config.device.wordLen)) s)) :=
        rfl
      rw [hexec, memRead_wf hwf]
      rfl
    · rw [pulseEncode_length, nLead_device, mBit_device, hlen]
  · obtain ⟨-, hpending⟩ := onlyTransmitFillsTheBuffer _ s s' hi (step_eq_stepOn s ▸ hs)
    obtain hstays | ⟨hleaves, -⟩ := hpending t hout
    · exact .inl hstays
    · exact .inr hleaves

end Sys2Proof.Machine
end

section
/-! PROOFS. The pending frame: what holds it, who takes it, and what the driver receives (O15, O16, O24, O29, O30). -/

namespace Sys2Proof.Machine

theorem portOpen_of_busy {s : State} (hb : s.status.busy = true) : portOpen s = false := by
  simp [portOpen, hb]

/-! ### BUSY -/

/-- Only the driver's turn and reset's end BUSY: no command runs meanwhile (R137). -/
theorem TurnEffect.busy {c : Config} {t : Turn} {s s' : State} (he : TurnEffect c t s s')
    (hb : s.status.busy = true) : s'.status.busy = true ∨ t = .driver ∨ t = .reset := by
  have hclosed : portOpen s ≠ true := by simp [portOpen_of_busy hb]
  cases he with
  | pass => exact .inl hb
  | illegal _ _ _ _ _ ho => exact absurd ho hclosed
  | run _ _ _ _ _ _ ho => exact absurd ho hclosed
  | deliver _ ht => exact .inr (.inl ht)
  | reset ht => exact .inr (.inr ht)

/-- Settles O15: a BUSY block's port is closed, and reset needs no open port. -/
theorem busyHoldsEveryCommand : Obligations.BusyHoldsEveryCommand := by
  refine ⟨fun s ts hb ht => step_portClosed ht (portOpen_of_busy hb), fun s s' hs hb hb' => ?_, fun s ts _ ht => ?_⟩
  · rw [step_eq_stepOn] at hs
    obtain ⟨t, ts, ht, he⟩ := stepOn_eq_next hs
    rw [ht]
    obtain hstill | rfl | rfl := he.busy hb
    · exact absurd (hstill.symm.trans hb') (by decide)
    · exact .inl rfl
    · exact .inr rfl
  · exact ⟨_, (step_eq_stepOn s).trans (stepOn_cons _ s .reset ts ht)⟩

/-! ### The driver's turn -/

theorem driverTurn_pending {s : State} {t : List PulseItem} (h : s.out = some t) :
    driverTurn s = .next (deliverFrame t s) := by
  rw [driverTurn, h]

theorem driverTurn_idle {s : State} (h : s.out = none) : driverTurn s = .next s := by
  rw [driverTurn, h]

theorem step_driver {s : State} {ts : List Turn} (ht : s.turns = .driver :: ts) :
    step s = driverTurn { s with turns := ts } := by
  rw [step, stepWith, ht]
  rfl

/-- Settles O16: the driver's turn takes a pending frame, and passes without one. -/
theorem driverAcceptDeliversTheFrame : Obligations.DriverAcceptDeliversTheFrame :=
  ⟨fun _ _ _ ht hout => (step_driver ht).trans (driverTurn_pending hout),
    fun _ _ ht hout => (step_driver ht).trans (driverTurn_idle hout)⟩

/-! ### What the driver receives -/

/-- A turn delivers nothing, or it is the driver's and takes the pending frame out of OUT. -/
theorem TurnEffect.delivered {c : Config} {t : Turn} {s s' : State} (he : TurnEffect c t s s') :
    s'.delivered = s.delivered ∨
      ∃ frame, t = .driver ∧ s.out = some frame ∧ s'.delivered = s.delivered ++ [frame] ∧ s'.out = none := by
  cases he with
  | run _ _ _ _ _ _ _ _ _ hi =>
    obtain ⟨-, -, hdelivered⟩ := hi.environment
    exact .inl hdelivered
  | deliver frame ht hout => exact .inr ⟨frame, ht, hout, rfl, rfl⟩
  | pass | illegal | reset => exact .inl rfl

theorem stepOn_delivered {c : Config} {s s' : State} (hs : stepOn c s = .next s') :
    s'.delivered = s.delivered ∨
      ∃ t, s.turns.head? = some .driver ∧ s.out = some t ∧ s'.delivered = s.delivered ++ [t] ∧ s'.out = none := by
  obtain ⟨t, ts, ht, he⟩ := stepOn_eq_next hs
  obtain hsame | ⟨frame, rfl, hout, hadded, hempty⟩ := he.delivered
  · exact .inl hsame
  · exact .inr ⟨frame, by rw [ht]; rfl, hout, hadded, hempty⟩

/-- Settles O24: the one timeline a step can add is the pending frame, which encodes a whole word (R50). -/
theorem driverReceivesFramesInOrder : Obligations.DriverReceivesFramesInOrder := by
  refine ⟨fun c s s' hi hword hframes hs t ht => ?_, fun c s s' => stepOn_delivered⟩
  obtain hsame | ⟨frame, -, hout, hadded, -⟩ := stepOn_delivered hs
  · exact hframes t (hsame ▸ ht)
  · rw [hadded, List.mem_append, List.mem_singleton] at ht
    obtain hold | rfl := ht
    · exact hframes t hold
    · exact ⟨s.cw, (Memory.wf_iff ..).1 hi.word, memRead_wf hi.word ▸ hword t hout⟩

/-! ### Turns that pass -/

/-- The turn of an agent that has no enabled step, whatever is presented: a closed port's, or the driver's with no
frame pending. -/
def TurnHeld (s : State) : Turn → Prop
  | .port => portOpen s = false
  | .driver => s.out = none
  | .reset => False

theorem step_of_turnHeld {s : State} {t : Turn} {ts : List Turn} (ht : s.turns = t :: ts) (h : TurnHeld s t) :
    step s = .next { s with turns := ts } := by
  cases t with
  | port => exact step_portClosed ht h
  | driver => exact (step_driver ht).trans (driverTurn_idle h)
  | reset => exact h.elim

theorem run_succ_of_step {M : Host.Core} {s s' : M.State} (h : M.step s = .next s') (k : Nat) :
    M.run (k + 1) s = M.run k s' := by
  rw [Host.Core.run, h]

/-- A run of held turns leaves the block as it was, for any number of them. -/
theorem run_of_turnsHeld (us : List Turn) {s : State} {ts : List Turn} (ht : s.turns = us ++ ts)
    (h : ∀ u ∈ us, TurnHeld s u) : Host.Core.run Sys2Proof.core us.length s = .next { s with turns := ts } := by
  induction us generalizing s with
  | nil =>
    rw [List.nil_append] at ht
    rw [← ht]
    rfl
  | cons u us ih =>
    obtain ⟨hu, hus⟩ := List.forall_mem_cons.1 h
    exact (run_succ_of_step (M := Sys2Proof.core) (step_of_turnHeld ht hu) us.length).trans
      (ih (s := { s with turns := us ++ ts }) rfl hus)

/-- Settles O29: a BUSY block holds every port turn, a faulted one with no frame every turn but reset's. -/
theorem noDriverTurnIsAHang : Obligations.NoDriverTurnIsAHang := by
  refine ⟨fun n s ts hb ht => ?_, fun us s ts hf hout hreset ht => run_of_turnsHeld us ht fun u hu => ?_⟩
  · have hrun := run_of_turnsHeld (List.replicate n .port) ht fun u hu => by
      rw [List.eq_of_mem_replicate hu]
      exact portOpen_of_busy hb
    rwa [List.length_replicate] at hrun
  · cases u with
    | port => exact portOpen_of_faulted hf
    | driver => exact hout
    | reset => exact absurd hu hreset

/-! ### A fair driver -/

theorem advance_portClosed {c : Config} {s : State} (ho : portOpen s = false) : advance c .port s = s := by
  rw [advance, runTurn, portTurn_closed c _ ho]

theorem advance_driver_pending {c : Config} {s : State} {t : List PulseItem} (h : s.out = some t) :
    advance c .driver s = deliverFrame t s := by
  rw [advance, runTurn, driverTurn_pending h]

/-- While only port turns come, a block whose port is closed stays as it is. -/
theorem trajectory_portClosed (c : Config) {order : Nat → Turn} {s : State} (ho : portOpen s = false) {n : Nat}
    (h : ∀ k < n, order k = .port) : trajectory c order s n = s := by
  induction n with
  | zero => rfl
  | succ n ih =>
    rw [trajectory, ih fun k hk => h k (Nat.lt_succ_of_lt hk), h n (Nat.lt_succ_self n), advance_portClosed ho]

/-- A fair order does not give the port every turn while a frame is pending and the port is closed. -/
theorem exists_turn_ne_port {c : Config} {order : Nat → Turn} {s : State} (hfair : DriverFair c order s)
    (ho : portOpen s = false) (hd : driverEnabled s = true) : ∃ n, order n ≠ .port := by
  by_contra hnone
  have hport (n : Nat) : order n = .port := not_not.1 fun h => hnone ⟨n, h⟩
  obtain ⟨m, -, hm⟩ := hfair 0 fun m _ => (trajectory_portClosed c ho fun k _ => hport k).symm ▸ hd
  rw [hport m] at hm
  cases hm

/-- Settles O30: the first turn that is not the port's finds the state unchanged; fairness says that there is one. -/
theorem fairDriverAcceptsTheFrame : Obligations.FairDriverAcceptsTheFrame := by
  intro c order s t hi hfair hout
  have hclosed : portOpen s = false :=
    portOpen_of_busy (hi.busy.2 (hout ▸ Option.some_ne_none t))
  have hexists := exists_turn_ne_port hfair hclosed (by rw [driverEnabled, hout]; rfl)
  have hbefore : ∀ k < Nat.find hexists, order k = .port := fun k hk => not_not.1 (Nat.find_min hexists hk)
  refine ⟨Nat.find hexists, hbefore, ?_⟩
  cases hturn : order (Nat.find hexists) with
  | port => exact absurd hturn (Nat.find_spec hexists)
  | reset => exact .inl rfl
  | driver =>
    rw [trajectory, trajectory_portClosed c hclosed hbefore, hturn, advance_driver_pending hout]
    exact .inr ⟨rfl, rfl, rfl, rfl⟩

end Sys2Proof.Machine
end

section
/-! PROOFS. A step that faults writes STATUS alone (O19). -/

namespace Sys2Proof.Machine

/-- A turn that faults is an accepted command's, refused or run: it takes the fault and the command leaves the port,
and it writes nothing else (R153). -/
theorem TurnEffect.eq_takeFault {c : Config} {t : Turn} {s s' : State} (he : TurnEffect c t s s')
    (hf : s.status.faulted = false) (hf' : s'.status.faulted = true) :
    ∃ cause, s' = takeFault cause { s with port := s.port.tail } := by
  cases he with
  | illegal _ _ _ _ hp => exact ⟨.illegalCommand, by rw [hp, List.tail_cons]⟩
  | run _ _ _ _ _ hp _ _ _ hi =>
    rw [hp, List.tail_cons]
    exact ⟨.rangeError, hi.eq_takeFault hf hf'⟩
  | pass | deliver => exact absurd (hf.symm.trans hf') (by decide)
  | reset => exact absurd hf' Bool.false_ne_true

/-- Settles O19: the step is one faulting turn, and `takeFault` writes STATUS alone and keeps BUSY. -/
theorem faultingStepIsPrecise : Obligations.FaultingStepIsPrecise := by
  intro s s' hs hf hf'
  rw [step_eq_stepOn] at hs
  obtain ⟨t, ts, -, he⟩ := stepOn_eq_next hs
  obtain ⟨cause, rfl⟩ := he.eq_takeFault hf hf'
  exact ⟨rfl, rfl, rfl, rfl, rfl, rfl⟩

end Sys2Proof.Machine
end

section
/-! PROOFS. What reset's turn does, and what a block just reset accepts (O12, O13, O18). -/

namespace Sys2Proof.Machine

/-- Reset's turn is enabled in every state, whatever is pending, held or faulted (R171). -/
theorem stepOn_reset (c : Config) {s : State} {ts : List Turn} (ht : s.turns = .reset :: ts) :
    stepOn c s = .next (resetBlock c { s with turns := ts }) :=
  stepOn_cons c s .reset ts ht

theorem step_reset {s : State} {ts : List Turn} (ht : s.turns = .reset :: ts) :
    step s = .next (resetBlock Config.device { s with turns := ts }) :=
  (step_eq_stepOn s).trans (stepOn_reset Config.device ht)

/-- Settles O13: reset's turn writes OUT and STATUS and delivers nothing; under every other turn the fault is sticky
(O14). -/
theorem onlyResetClearsFaulted : Obligations.OnlyResetClearsFaulted := by
  obtain ⟨-, -, -, hsticky, -⟩ := faultIsTakenAndSticky
  refine ⟨fun s ts ht => ⟨_, step_reset ht, resetBlock_out _ _, rfl, resetBlock_delivered _ _⟩,
    fun s s' hs hf hf' => ?_⟩
  obtain ⟨hstill, -⟩ | hreset := hsticky s s' hs hf
  · exact absurd (hstill.symm.trans hf') (by decide)
  · exact hreset

/-- Settles O12: the four elements after reset's turn; the listed bits are REF's BASELINE, which the device has. -/
theorem resetSetsEveryElement : Obligations.ResetSetsEveryElement :=
  ⟨fun _ _ ht => ⟨_, step_reset ht, rfl, resetBlock_status _ _, rfl, resetBlock_resp _ _, resetBlock_out _ _⟩,
    fun c _ _ ht => ⟨_, stepOn_reset c ht, resetBlock_cw _ _, resetBlock_status _ _, resetBlock_resp _ _,
      resetBlock_out _ _⟩⟩

/-- Settles O18: a block just reset is neither faulted nor BUSY, so the port's turn runs the command (O9). -/
theorem resetDeviceAcceptsAtOnce : Obligations.ResetDeviceAcceptsAtOnce := fun cmd i hd =>
  stepRunsTheDecodedInstruction { State.reset with port := [cmd], turns := [.port] } [] cmd [] i rfl rfl rfl rfl hd

end Sys2Proof.Machine
end
